-- ==== Sys2Proof/Word.lean ====
section
/-! DEFINITION. The widths of the block: a register, an address and an instruction are 32 bits
(spec R6, R8, R20), memory holds 8-bit bytes (R51), and an instruction field names one of the
32 general registers (R82). -/

namespace Sys2Proof

/-- A register value, an address or an instruction word: `u32` of R8. -/
abbrev Word := BitVec 32

/-- What one memory address names (R51). -/
abbrev Byte := BitVec 8

/-- The index of a general register, `x0` to `x31` (R20). -/
abbrev Reg := Fin 32

end Sys2Proof
end

