-- ==== Sys2Proof/Config.lean ====
section
/-! DEFINITION. The implementation parameters of R6: what one machine instance fixes and nothing
changes. They are carried in the state, so a statement about every state is a statement about every
value of them (log entry 2). No value of the block is left undefined after an instruction (R94), so
there is no free value here. -/

namespace Sys2Proof

/-- The parameters a model of the block takes (R6). -/
structure Config where
  /-- `MEM_SIZE`, the memory capacity in bytes. -/
  memSize : Nat
  /-- `POISON`, what `Reset()` writes to `x1` to `x31` and the pc. -/
  poison : Word
deriving DecidableEq, Repr

/-- The constraints R6 puts on the parameters: `MEM_SIZE mod 4 = 0`, `4 <= MEM_SIZE <= 2^32` (D6) and
`POISON != 0` (D5). -/
abbrev Config.Legal (c : Config) : Prop :=
  c.memSize % 4 = 0 ∧ 4 ≤ c.memSize ∧ c.memSize ≤ 2 ^ 32 ∧ c.poison ≠ 0

/-- The number of breakpoint entries, `NBKPT = MEM_SIZE / 4` (R6, R30). -/
abbrev Config.numBreakpoints (c : Config) : Nat := c.memSize / 4

/-- The default capacity of R6, and for the open `POISON` a number of the model's own: DESIGN CHOICE,
log entry 1. It is the value the spec's illustrative vector V-STEP-13 uses; no statement rests on it. -/
def Config.standard : Config := { memSize := 0x01000000, poison := 0xDEADBEEF }

end Sys2Proof
end

