-- ==== Sys2Proof/WellFormed.lean ====
section
/-! DEFINITION. Which terms of `Instr` stand for a word. Register numbers and immediates are in range by
their types; what is left to check is that a branch or `jal` offset is even (R87, R89: bit 0 is 0 and has
no place in the word), and that `system-other` is neither the `ecall` nor the `ebreak` word (R233 follows
R231 and R232). -/

namespace Sys2Proof

/-- A J or B offset is a multiple of 2 (R87, R89). -/
def evenOffset {n : Nat} (off : BitVec n) : Bool := !off.getLsbD 0

/-- `word[31:7]` of `ecall`, `0x0000_0073` (R231). -/
def ecallFields : BitVec 25 := 0

/-- `word[31:7]` of `ebreak`, `0x0010_0073` (R232). -/
def ebreakFields : BitVec 25 := 0x2000

/-- The check, one line for each row of the opcode table. -/
def Instr.wellFormed : Instr → Bool
  | .lui _ _ => true
  | .auipc _ _ => true
  | .jal _ off => evenOffset off
  | .jalr _ _ _ => true
  | .beq _ _ off => evenOffset off
  | .bne _ _ off => evenOffset off
  | .blt _ _ off => evenOffset off
  | .bge _ _ off => evenOffset off
  | .bltu _ _ off => evenOffset off
  | .bgeu _ _ off => evenOffset off
  | .lb _ _ _ => true
  | .lh _ _ _ => true
  | .lw _ _ _ => true
  | .lbu _ _ _ => true
  | .lhu _ _ _ => true
  | .sb _ _ _ => true
  | .sh _ _ _ => true
  | .sw _ _ _ => true
  | .addi _ _ _ => true
  | .slti _ _ _ => true
  | .sltiu _ _ _ => true
  | .xori _ _ _ => true
  | .ori _ _ _ => true
  | .andi _ _ _ => true
  | .slli _ _ _ => true
  | .srli _ _ _ => true
  | .srai _ _ _ => true
  | .add _ _ _ => true
  | .sub _ _ _ => true
  | .sll _ _ _ => true
  | .slt _ _ _ => true
  | .sltu _ _ _ => true
  | .xor _ _ _ => true
  | .srl _ _ _ => true
  | .sra _ _ _ => true
  | .or _ _ _ => true
  | .and _ _ _ => true
  | .fence _ => true
  | .ecall => true
  | .ebreak => true
  | .systemOther fields => fields != ecallFields && fields != ebreakFields

end Sys2Proof
end

