-- ==== Sys2Proof/Decode.lean ====
section
/-! DEFINITION. Byte order of an instruction word, the field decoder (R82 to R90), the decode function
(R93) and the encoder written from the same tables (R84, R91, R92), and the opcode table itself as data.

`decode` names the 41 rows of the opcode table, the four that never execute among them; `decodeExecutable`
is the function R93 writes out, which knows the 37 executable instructions only. A row that never executes
raises in its meaning the very fault R93's `Invalid(Unmapped)` raises (R230 to R233). -/

namespace Sys2Proof

/-! ## Byte order (R55, R56) -/

/-- The little-endian value of up to four bytes, the first at the lowest address (R53). -/
def wordOfBytes : List Byte → Word
  | [] => 0
  | b :: bs => b.setWidth 32 ||| (wordOfBytes bs <<< 8)

/-- The low `n` bytes of a word, the least significant first (R54). -/
def bytesOfWord : Nat → Word → List Byte
  | 0, _ => []
  | n + 1, v => v.setWidth 8 :: bytesOfWord n (v >>> 8)

/-! ## Fields (R82, R83) -/

/-- `opcode = word[6:0]`. -/
def fieldOpcode (w : Word) : BitVec 7 := w.extractLsb' 0 7

/-- The major class, `word[6:2]` (R83). -/
def fieldMajor (w : Word) : BitVec 5 := w.extractLsb' 2 5

/-- `rd = word[11:7]`. -/
def fieldRd (w : Word) : Reg := (w.extractLsb' 7 5).toFin

/-- `funct3 = word[14:12]`. -/
def fieldFunct3 (w : Word) : BitVec 3 := w.extractLsb' 12 3

/-- `rs1 = word[19:15]`. -/
def fieldRs1 (w : Word) : Reg := (w.extractLsb' 15 5).toFin

/-- `rs2 = word[24:20]`. -/
def fieldRs2 (w : Word) : Reg := (w.extractLsb' 20 5).toFin

/-- `funct7 = word[31:25]`. -/
def fieldFunct7 (w : Word) : BitVec 7 := w.extractLsb' 25 7

/-- Everything above the opcode, `word[31:7]`, for the rows that never execute. -/
def fieldAboveOpcode (w : Word) : BitVec 25 := w.extractLsb' 7 25

/-! ## Immediates as the word holds them (R85 to R90) -/

/-- `word[31:20]` (R85). -/
def fieldImmI (w : Word) : BitVec 12 := w.extractLsb' 20 12

/-- `word[31:25]` over `word[11:7]` (R86, C3). -/
def fieldImmS (w : Word) : BitVec 12 := w.extractLsb' 25 7 ++ w.extractLsb' 7 5

/-- `word[31]`, `word[7]`, `word[30:25]`, `word[11:8]`, then a 0 bit (R87). -/
def fieldImmB (w : Word) : BitVec 13 :=
  w.extractLsb' 31 1 ++ w.extractLsb' 7 1 ++ w.extractLsb' 25 6 ++ w.extractLsb' 8 4 ++ 0#1

/-- `word[31:12]` (R88). -/
def fieldImmU (w : Word) : BitVec 20 := w.extractLsb' 12 20

/-- `word[31]`, `word[19:12]`, `word[20]`, `word[30:21]`, then a 0 bit (R89). -/
def fieldImmJ (w : Word) : BitVec 21 :=
  w.extractLsb' 31 1 ++ w.extractLsb' 12 8 ++ w.extractLsb' 20 1 ++ w.extractLsb' 21 10 ++ 0#1

/-- `shamt = word[24:20]` (R90). -/
def fieldShamt (w : Word) : BitVec 5 := w.extractLsb' 20 5

/-! ## Decode (R93) -/

/-- Class BRANCH (R92). -/
def decodeBranch (w : Word) : Except InvalidReason Instr :=
  match fieldFunct3 w with
  | 0b000#3 => .ok (.beq (fieldRs1 w) (fieldRs2 w) (fieldImmB w))
  | 0b001#3 => .ok (.bne (fieldRs1 w) (fieldRs2 w) (fieldImmB w))
  | 0b100#3 => .ok (.blt (fieldRs1 w) (fieldRs2 w) (fieldImmB w))
  | 0b101#3 => .ok (.bge (fieldRs1 w) (fieldRs2 w) (fieldImmB w))
  | 0b110#3 => .ok (.bltu (fieldRs1 w) (fieldRs2 w) (fieldImmB w))
  | 0b111#3 => .ok (.bgeu (fieldRs1 w) (fieldRs2 w) (fieldImmB w))
  | _ => .error .unmapped

/-- Class LOAD (R92). -/
def decodeLoad (w : Word) : Except InvalidReason Instr :=
  match fieldFunct3 w with
  | 0b000#3 => .ok (.lb (fieldRd w) (fieldRs1 w) (fieldImmI w))
  | 0b001#3 => .ok (.lh (fieldRd w) (fieldRs1 w) (fieldImmI w))
  | 0b010#3 => .ok (.lw (fieldRd w) (fieldRs1 w) (fieldImmI w))
  | 0b100#3 => .ok (.lbu (fieldRd w) (fieldRs1 w) (fieldImmI w))
  | 0b101#3 => .ok (.lhu (fieldRd w) (fieldRs1 w) (fieldImmI w))
  | _ => .error .unmapped

/-- Class STORE (R92). -/
def decodeStore (w : Word) : Except InvalidReason Instr :=
  match fieldFunct3 w with
  | 0b000#3 => .ok (.sb (fieldRs2 w) (fieldRs1 w) (fieldImmS w))
  | 0b001#3 => .ok (.sh (fieldRs2 w) (fieldRs1 w) (fieldImmS w))
  | 0b010#3 => .ok (.sw (fieldRs2 w) (fieldRs1 w) (fieldImmS w))
  | _ => .error .unmapped

/-- Class OP-IMM, `funct3` 101: the two right shifts, told apart by all of `funct7` (R92, D2). -/
def decodeShiftRightImm (w : Word) : Except InvalidReason Instr :=
  match fieldFunct7 w with
  | 0b0000000#7 => .ok (.srli (fieldRd w) (fieldRs1 w) (fieldShamt w))
  | 0b0100000#7 => .ok (.srai (fieldRd w) (fieldRs1 w) (fieldShamt w))
  | _ => .error .unmapped

/-- Class OP-IMM, `funct3` 001 (R92, D2). -/
def decodeShiftLeftImm (w : Word) : Except InvalidReason Instr :=
  match fieldFunct7 w with
  | 0b0000000#7 => .ok (.slli (fieldRd w) (fieldRs1 w) (fieldShamt w))
  | _ => .error .unmapped

/-- Class OP-IMM (R92). -/
def decodeOpImm (w : Word) : Except InvalidReason Instr :=
  match fieldFunct3 w with
  | 0b000#3 => .ok (.addi (fieldRd w) (fieldRs1 w) (fieldImmI w))
  | 0b001#3 => decodeShiftLeftImm w
  | 0b010#3 => .ok (.slti (fieldRd w) (fieldRs1 w) (fieldImmI w))
  | 0b011#3 => .ok (.sltiu (fieldRd w) (fieldRs1 w) (fieldImmI w))
  | 0b100#3 => .ok (.xori (fieldRd w) (fieldRs1 w) (fieldImmI w))
  | 0b101#3 => decodeShiftRightImm w
  | 0b110#3 => .ok (.ori (fieldRd w) (fieldRs1 w) (fieldImmI w))
  | 0b111#3 => .ok (.andi (fieldRd w) (fieldRs1 w) (fieldImmI w))

/-- Class OP with `funct7` 0000000 (R92). -/
def decodeOpPlain (w : Word) : Except InvalidReason Instr :=
  match fieldFunct3 w with
  | 0b000#3 => .ok (.add (fieldRd w) (fieldRs1 w) (fieldRs2 w))
  | 0b001#3 => .ok (.sll (fieldRd w) (fieldRs1 w) (fieldRs2 w))
  | 0b010#3 => .ok (.slt (fieldRd w) (fieldRs1 w) (fieldRs2 w))
  | 0b011#3 => .ok (.sltu (fieldRd w) (fieldRs1 w) (fieldRs2 w))
  | 0b100#3 => .ok (.xor (fieldRd w) (fieldRs1 w) (fieldRs2 w))
  | 0b101#3 => .ok (.srl (fieldRd w) (fieldRs1 w) (fieldRs2 w))
  | 0b110#3 => .ok (.or (fieldRd w) (fieldRs1 w) (fieldRs2 w))
  | 0b111#3 => .ok (.and (fieldRd w) (fieldRs1 w) (fieldRs2 w))

/-- Class OP with `funct7` 0100000 (R92). -/
def decodeOpAlternate (w : Word) : Except InvalidReason Instr :=
  match fieldFunct3 w with
  | 0b000#3 => .ok (.sub (fieldRd w) (fieldRs1 w) (fieldRs2 w))
  | 0b101#3 => .ok (.sra (fieldRd w) (fieldRs1 w) (fieldRs2 w))
  | _ => .error .unmapped

/-- Class OP (R92): all of `funct7` is examined (D2). -/
def decodeOp (w : Word) : Except InvalidReason Instr :=
  match fieldFunct7 w with
  | 0b0000000#7 => decodeOpPlain w
  | 0b0100000#7 => decodeOpAlternate w
  | _ => .error .unmapped

/-- Class JALR: `funct3` must be 000 (R93, D2). -/
def decodeJalr (w : Word) : Except InvalidReason Instr :=
  match fieldFunct3 w with
  | 0b000#3 => .ok (.jalr (fieldRd w) (fieldRs1 w) (fieldImmI w))
  | _ => .error .unmapped

/-- Class SYSTEM: the three rows of the table that share it (R231 to R233). -/
def decodeSystem (w : Word) : Instr :=
  if fieldAboveOpcode w = ecallFields then .ecall
  else if fieldAboveOpcode w = ebreakFields then .ebreak
  else .systemOther (fieldAboveOpcode w)

/-- The instruction of the opcode table a word stands for, or why it is none. Total (R93, R94). -/
def decode (w : Word) : Except InvalidReason Instr :=
  if w.extractLsb' 0 2 ≠ 0b11#2 then .error .lengthBits
  else match fieldMajor w with
    | 0b01101#5 => .ok (.lui (fieldRd w) (fieldImmU w))
    | 0b00101#5 => .ok (.auipc (fieldRd w) (fieldImmU w))
    | 0b11011#5 => .ok (.jal (fieldRd w) (fieldImmJ w))
    | 0b11001#5 => decodeJalr w
    | 0b11000#5 => decodeBranch w
    | 0b00000#5 => decodeLoad w
    | 0b01000#5 => decodeStore w
    | 0b00100#5 => decodeOpImm w
    | 0b01100#5 => decodeOp w
    | 0b00011#5 => .ok (.fence (fieldAboveOpcode w))
    | 0b11100#5 => .ok (decodeSystem w)
    | _ => .error .unmapped

/-- The table's `executes` column: false for the four rows R230 to R233 refuse. -/
def Instr.executes : Instr → Bool
  | .lui _ _ | .auipc _ _ | .jal _ _ | .jalr _ _ _ => true
  | .beq _ _ _ | .bne _ _ _ | .blt _ _ _ | .bge _ _ _ | .bltu _ _ _ | .bgeu _ _ _ => true
  | .lb _ _ _ | .lh _ _ _ | .lw _ _ _ | .lbu _ _ _ | .lhu _ _ _ => true
  | .sb _ _ _ | .sh _ _ _ | .sw _ _ _ => true
  | .addi _ _ _ | .slti _ _ _ | .sltiu _ _ _ | .xori _ _ _ | .ori _ _ _ | .andi _ _ _ => true
  | .slli _ _ _ | .srli _ _ _ | .srai _ _ _ => true
  | .add _ _ _ | .sub _ _ _ | .sll _ _ _ | .slt _ _ _ | .sltu _ _ _ => true
  | .xor _ _ _ | .srl _ _ _ | .sra _ _ _ | .or _ _ _ | .and _ _ _ => true
  | .fence _ | .ecall | .ebreak | .systemOther _ => false

/-- `decode` as R93 writes it: one of the 37 instructions of R2, or `Invalid(reason)`. -/
def decodeExecutable (w : Word) : Except InvalidReason Instr :=
  match decode w with
  | .ok i => if i.executes then .ok i else .error .unmapped
  | .error reason => .error reason

/-- Why a list of bytes gives no instruction. -/
inductive DecodeError where
  /-- Fewer than the four bytes every instruction has (R80). -/
  | truncated
  /-- Four bytes whose word is no row of the opcode table (R94). -/
  | invalid (reason : InvalidReason)
deriving DecidableEq, Repr

/-- Decoding from bytes in memory order: the instruction of the first four bytes and the rest (R56, R80). -/
def decodeBytes : List Byte → Except DecodeError (Instr × List Byte)
  | b0 :: b1 :: b2 :: b3 :: rest =>
    match decode (wordOfBytes [b0, b1, b2, b3]) with
    | .ok i => .ok (i, rest)
    | .error reason => .error (.invalid reason)
  | _ => .error .truncated

/-- The bytes of an instruction word whose low `nbits` bits are `w` and whose other bits are 0, as the
block stores them (R56). -/
def tableWordBytes (nbits w : Nat) : List Byte := bytesOfWord 4 (BitVec.ofNat 32 (w % 2 ^ nbits))

/-- What the decoder reads from an instruction whose bits are `w`, numbered as the opcode table numbers
them. -/
def decodeTableWord (nbits w : Nat) : Option Instr :=
  match decodeBytes (tableWordBytes nbits w) with
  | .ok (i, _) => some i
  | .error _ => none

/-! ## Encode: the six layouts of R84 -/

/-- A register number as a 5-bit field. -/
def regBits (r : Reg) : BitVec 5 := BitVec.ofFin r

/-- R format. -/
def encodeR (funct7 : BitVec 7) (rs2 rs1 : Reg) (funct3 : BitVec 3) (rd : Reg) (opcode : BitVec 7) : Word :=
  funct7 ++ regBits rs2 ++ regBits rs1 ++ funct3 ++ regBits rd ++ opcode

/-- I format. -/
def encodeI (imm : BitVec 12) (rs1 : Reg) (funct3 : BitVec 3) (rd : Reg) (opcode : BitVec 7) : Word :=
  imm ++ regBits rs1 ++ funct3 ++ regBits rd ++ opcode

/-- I-shift format. -/
def encodeShift (funct7 : BitVec 7) (shamt : BitVec 5) (rs1 : Reg) (funct3 : BitVec 3) (rd : Reg)
    (opcode : BitVec 7) : Word :=
  funct7 ++ shamt ++ regBits rs1 ++ funct3 ++ regBits rd ++ opcode

/-- S format. -/
def encodeS (imm : BitVec 12) (rs2 rs1 : Reg) (funct3 : BitVec 3) (opcode : BitVec 7) : Word :=
  imm.extractLsb' 5 7 ++ regBits rs2 ++ regBits rs1 ++ funct3 ++ imm.extractLsb' 0 5 ++ opcode

/-- B format. -/
def encodeB (off : BitVec 13) (rs2 rs1 : Reg) (funct3 : BitVec 3) (opcode : BitVec 7) : Word :=
  off.extractLsb' 12 1 ++ off.extractLsb' 5 6 ++ regBits rs2 ++ regBits rs1 ++ funct3 ++
    off.extractLsb' 1 4 ++ off.extractLsb' 11 1 ++ opcode

/-- U format. -/
def encodeU (imm : BitVec 20) (rd : Reg) (opcode : BitVec 7) : Word := imm ++ regBits rd ++ opcode

/-- J format. -/
def encodeJ (off : BitVec 21) (rd : Reg) (opcode : BitVec 7) : Word :=
  off.extractLsb' 20 1 ++ off.extractLsb' 1 10 ++ off.extractLsb' 11 1 ++ off.extractLsb' 12 8 ++
    regBits rd ++ opcode

/-- A row that never executes: everything above the opcode is `fields`. -/
def encodeRefused (fields : BitVec 25) (opcode : BitVec 7) : Word := fields ++ opcode

/-- The word of a well-formed instruction (R91, R92). -/
def encode : Instr → Word
  | .lui rd imm => encodeU imm rd 0b0110111
  | .auipc rd imm => encodeU imm rd 0b0010111
  | .jal rd off => encodeJ off rd 0b1101111
  | .jalr rd rs1 imm => encodeI imm rs1 0b000 rd 0b1100111
  | .beq rs1 rs2 off => encodeB off rs2 rs1 0b000 0b1100011
  | .bne rs1 rs2 off => encodeB off rs2 rs1 0b001 0b1100011
  | .blt rs1 rs2 off => encodeB off rs2 rs1 0b100 0b1100011
  | .bge rs1 rs2 off => encodeB off rs2 rs1 0b101 0b1100011
  | .bltu rs1 rs2 off => encodeB off rs2 rs1 0b110 0b1100011
  | .bgeu rs1 rs2 off => encodeB off rs2 rs1 0b111 0b1100011
  | .lb rd rs1 imm => encodeI imm rs1 0b000 rd 0b0000011
  | .lh rd rs1 imm => encodeI imm rs1 0b001 rd 0b0000011
  | .lw rd rs1 imm => encodeI imm rs1 0b010 rd 0b0000011
  | .lbu rd rs1 imm => encodeI imm rs1 0b100 rd 0b0000011
  | .lhu rd rs1 imm => encodeI imm rs1 0b101 rd 0b0000011
  | .sb rs2 rs1 imm => encodeS imm rs2 rs1 0b000 0b0100011
  | .sh rs2 rs1 imm => encodeS imm rs2 rs1 0b001 0b0100011
  | .sw rs2 rs1 imm => encodeS imm rs2 rs1 0b010 0b0100011
  | .addi rd rs1 imm => encodeI imm rs1 0b000 rd 0b0010011
  | .slti rd rs1 imm => encodeI imm rs1 0b010 rd 0b0010011
  | .sltiu rd rs1 imm => encodeI imm rs1 0b011 rd 0b0010011
  | .xori rd rs1 imm => encodeI imm rs1 0b100 rd 0b0010011
  | .ori rd rs1 imm => encodeI imm rs1 0b110 rd 0b0010011
  | .andi rd rs1 imm => encodeI imm rs1 0b111 rd 0b0010011
  | .slli rd rs1 shamt => encodeShift 0b0000000 shamt rs1 0b001 rd 0b0010011
  | .srli rd rs1 shamt => encodeShift 0b0000000 shamt rs1 0b101 rd 0b0010011
  | .srai rd rs1 shamt => encodeShift 0b0100000 shamt rs1 0b101 rd 0b0010011
  | .add rd rs1 rs2 => encodeR 0b0000000 rs2 rs1 0b000 rd 0b0110011
  | .sub rd rs1 rs2 => encodeR 0b0100000 rs2 rs1 0b000 rd 0b0110011
  | .sll rd rs1 rs2 => encodeR 0b0000000 rs2 rs1 0b001 rd 0b0110011
  | .slt rd rs1 rs2 => encodeR 0b0000000 rs2 rs1 0b010 rd 0b0110011
  | .sltu rd rs1 rs2 => encodeR 0b0000000 rs2 rs1 0b011 rd 0b0110011
  | .xor rd rs1 rs2 => encodeR 0b0000000 rs2 rs1 0b100 rd 0b0110011
  | .srl rd rs1 rs2 => encodeR 0b0000000 rs2 rs1 0b101 rd 0b0110011
  | .sra rd rs1 rs2 => encodeR 0b0100000 rs2 rs1 0b101 rd 0b0110011
  | .or rd rs1 rs2 => encodeR 0b0000000 rs2 rs1 0b110 rd 0b0110011
  | .and rd rs1 rs2 => encodeR 0b0000000 rs2 rs1 0b111 rd 0b0110011
  | .fence fields => encodeRefused fields 0b0001111
  | .ecall => encodeRefused ecallFields 0b1110011
  | .ebreak => encodeRefused ebreakFields 0b1110011
  | .systemOther fields => encodeRefused fields 0b1110011

/-- The bytes of an instruction in memory order (R56). -/
def encodeBytes (i : Instr) : List Byte := bytesOfWord 4 (encode i)

/-! ## The opcode table as data -/

/-- A row of spec/opcode_table.json: a word is the row's when its bits under `mask` are `pattern`. -/
structure TableRow where
  mnemonic : String
  pattern : Word
  mask : Word
deriving DecidableEq, Repr

/-- The word has the row's fixed bits. -/
abbrev TableRow.Matches (r : TableRow) (w : Word) : Prop := w &&& r.mask = r.pattern

/-- spec/opcode_table.json, every row's `mnemonic`, `match` and `mask` (R91, R92, R230 to R233). -/
def opcodeTable : List TableRow :=
  [ ⟨"lui", 0x00000037, 0x0000007F⟩
  , ⟨"auipc", 0x00000017, 0x0000007F⟩
  , ⟨"jal", 0x0000006F, 0x0000007F⟩
  , ⟨"jalr", 0x00000067, 0x0000707F⟩
  , ⟨"beq", 0x00000063, 0x0000707F⟩
  , ⟨"bne", 0x00001063, 0x0000707F⟩
  , ⟨"blt", 0x00004063, 0x0000707F⟩
  , ⟨"bge", 0x00005063, 0x0000707F⟩
  , ⟨"bltu", 0x00006063, 0x0000707F⟩
  , ⟨"bgeu", 0x00007063, 0x0000707F⟩ ] ++
  [ ⟨"lb", 0x00000003, 0x0000707F⟩
  , ⟨"lh", 0x00001003, 0x0000707F⟩
  , ⟨"lw", 0x00002003, 0x0000707F⟩
  , ⟨"lbu", 0x00004003, 0x0000707F⟩
  , ⟨"lhu", 0x00005003, 0x0000707F⟩
  , ⟨"sb", 0x00000023, 0x0000707F⟩
  , ⟨"sh", 0x00001023, 0x0000707F⟩
  , ⟨"sw", 0x00002023, 0x0000707F⟩ ] ++
  [ ⟨"addi", 0x00000013, 0x0000707F⟩
  , ⟨"slti", 0x00002013, 0x0000707F⟩
  , ⟨"sltiu", 0x00003013, 0x0000707F⟩
  , ⟨"xori", 0x00004013, 0x0000707F⟩
  , ⟨"ori", 0x00006013, 0x0000707F⟩
  , ⟨"andi", 0x00007013, 0x0000707F⟩
  , ⟨"slli", 0x00001013, 0xFE00707F⟩
  , ⟨"srli", 0x00005013, 0xFE00707F⟩
  , ⟨"srai", 0x40005013, 0xFE00707F⟩ ] ++
  [ ⟨"add", 0x00000033, 0xFE00707F⟩
  , ⟨"sub", 0x40000033, 0xFE00707F⟩
  , ⟨"sll", 0x00001033, 0xFE00707F⟩
  , ⟨"slt", 0x00002033, 0xFE00707F⟩
  , ⟨"sltu", 0x00003033, 0xFE00707F⟩
  , ⟨"xor", 0x00004033, 0xFE00707F⟩
  , ⟨"srl", 0x00005033, 0xFE00707F⟩
  , ⟨"sra", 0x40005033, 0xFE00707F⟩
  , ⟨"or", 0x00006033, 0xFE00707F⟩
  , ⟨"and", 0x00007033, 0xFE00707F⟩ ] ++
  [ ⟨"fence", 0x0000000F, 0x0000007F⟩
  , ⟨"ecall", 0x00000073, 0xFFFFFFFF⟩
  , ⟨"ebreak", 0x00100073, 0xFFFFFFFF⟩
  , ⟨"system-other", 0x00000073, 0x0000007F⟩ ]

/-- The table's name of an instruction. -/
def Instr.mnemonic : Instr → String
  | .lui _ _ => "lui"
  | .auipc _ _ => "auipc"
  | .jal _ _ => "jal"
  | .jalr _ _ _ => "jalr"
  | .beq _ _ _ => "beq"
  | .bne _ _ _ => "bne"
  | .blt _ _ _ => "blt"
  | .bge _ _ _ => "bge"
  | .bltu _ _ _ => "bltu"
  | .bgeu _ _ _ => "bgeu"
  | .lb _ _ _ => "lb"
  | .lh _ _ _ => "lh"
  | .lw _ _ _ => "lw"
  | .lbu _ _ _ => "lbu"
  | .lhu _ _ _ => "lhu"
  | .sb _ _ _ => "sb"
  | .sh _ _ _ => "sh"
  | .sw _ _ _ => "sw"
  | .addi _ _ _ => "addi"
  | .slti _ _ _ => "slti"
  | .sltiu _ _ _ => "sltiu"
  | .xori _ _ _ => "xori"
  | .ori _ _ _ => "ori"
  | .andi _ _ _ => "andi"
  | .slli _ _ _ => "slli"
  | .srli _ _ _ => "srli"
  | .srai _ _ _ => "srai"
  | .add _ _ _ => "add"
  | .sub _ _ _ => "sub"
  | .sll _ _ _ => "sll"
  | .slt _ _ _ => "slt"
  | .sltu _ _ _ => "sltu"
  | .xor _ _ _ => "xor"
  | .srl _ _ _ => "srl"
  | .sra _ _ _ => "sra"
  | .or _ _ _ => "or"
  | .and _ _ _ => "and"
  | .fence _ => "fence"
  | .ecall => "ecall"
  | .ebreak => "ebreak"
  | .systemOther _ => "system-other"

end Sys2Proof
end

