-- ==== Sys2Proof/Machine/State.lean ====
section
/-! DEFINITION. Everything the spec gives the machine (10_state.md section 7), the faults (R240 to R243)
and the state right after power-on and `Reset()` (R270, R271). -/

namespace Sys2Proof.Machine

/-- What an access is for, part of an out-of-bounds fault's info (R53, R243). -/
inductive Access where
  /-- Instruction fetch (R56). -/
  | fetch
  /-- One of the five loads. -/
  | load
  /-- One of the three stores. -/
  | store
  /-- A `ReadMemory` port (R69); never raised by `step`. -/
  | hostRead
  /-- A `WriteMemory` port (R69); never raised by `step`. -/
  | hostWrite
deriving DecidableEq, Repr

/-- The three execution-time faults (R240). Each ends the `Step` call with no part of the instruction's
effect (R123). -/
inductive Fault where
  /-- The fetch raises it when `pc mod 4 != 0` (R241). Safe: the spec raises it. -/
  | misalignedFetch (pc : Word)
  /-- Decoding raises it for a word that is no row of the table, and the meanings of `fence`, `ecall`,
  `ebreak` and `system-other` raise it always (R242, R230 to R233). Safe: the spec raises it. -/
  | invalidEncoding (reason : InvalidReason) (word : Word)
  /-- The fetch, the five loads, the three stores and the host's memory ports raise it when
  `addr + n > MEM_SIZE` (R243). Safe: the spec raises it. -/
  | outOfBounds (access : Access) (addr : Word) (n : Nat)
deriving DecidableEq, Repr

/-- Why the model declines to run an instruction. -/
inductive Refusal where
  /-- An arm of `exec` without a meaning raises it. Safe. No arm does: every row has its meaning. -/
  | notModelled (mnemonic : String)
deriving DecidableEq, Repr

/-- Memory: the bytes that differ from what an unlisted address reads as, by strictly rising address
(R50, R51). -/
abbrev Memory := List Host.Cell

/-- The machine. `x0` has no storage (R21). -/
structure State where
  /-- `x1` to `x31`: `x[i]` holds register `i + 1` (R20, R22). -/
  x : Vector Word 31
  /-- The program counter, register-file index 32 (R26). -/
  pc : Word
  /-- The `MEM_SIZE` bytes of memory (R50). -/
  mem : Memory
  /-- The breakpoint table: its set entries, strictly rising (R30). -/
  bkpts : List Nat
  /-- The instance's parameters `MEM_SIZE` and `POISON` (R6), which nothing changes. -/
  cfg : Config
deriving DecidableEq, Repr

/-- What one instruction ends in. -/
abbrev Result := Host.Outcome State Fault Refusal

/-- A newly created instance (R271): registers as after `Reset()` (R270), memory all zero, every
breakpoint entry false. -/
def State.powerOn (c : Config) : State :=
  { x := Vector.replicate 31 c.poison, pc := c.poison, mem := [], bkpts := [], cfg := c }

/-- The machine right after reset, with the default capacity and the model's `POISON` (log entry 1). -/
def State.reset : State := State.powerOn Config.standard

end Sys2Proof.Machine
end

