-- ==== Sys2Proof/Machine/Ops.lean ====
section
/-! DEFINITION. The named operations over registers and memory, the fetch, an instruction's effect record
and its commit (R122), and raising a fault (R13, R246). Every meaning is built from these. -/

namespace Sys2Proof.Machine

/-! ## General registers (R11, R21) -/

/-- `x[i]`: register 0 reads 0. -/
def readX (r : Reg) (s : State) : Word :=
  if h : r.val = 0 then 0 else s.x[r.val - 1]'(by omega)

/-- `x[i] <- v`: a write to register 0 has no effect. -/
def writeX (r : Reg) (v : Word) (s : State) : State :=
  if h : r.val = 0 then s else { s with x := s.x.set (r.val - 1) v (by omega) }

/-! ## Memory, byte by byte (R51, R271) -/

/-- What an address reads as that nothing has written: memory is zero at power-on (R271). -/
def unlistedByte : Byte := 0

/-- The byte at an address. -/
def readByte : Memory → Nat → Byte
  | [], _ => unlistedByte
  | (k, b) :: rest, a => if k = a then b else readByte rest a

/-- The memory without its entry for an address. -/
def eraseByte (m : Memory) (a : Nat) : Memory := m.filter fun p => p.1 != a

/-- The memory with an entry for an address, put before the first higher address. -/
def insertByte : Memory → Nat → Byte → Memory
  | [], a, b => [(a, b)]
  | (k, c) :: rest, a, b =>
    if a < k then (a, b) :: (k, c) :: rest else (k, c) :: insertByte rest a b

/-- Set the byte at an address, keeping the canonical form: a byte equal to the unlisted one is not
listed. -/
def writeByte (m : Memory) (a : Nat) (b : Byte) : Memory :=
  if b = unlistedByte then eraseByte m a else insertByte (eraseByte m a) a b

/-- The `n` bytes from an address up. -/
def readBytes (m : Memory) (a : Nat) : Nat → List Byte
  | 0 => []
  | n + 1 => readByte m a :: readBytes m (a + 1) n

/-- Set consecutive bytes from an address up. -/
def writeBytes (m : Memory) (a : Nat) : List Byte → Memory
  | [] => m
  | b :: bs => writeBytes (writeByte m a b) (a + 1) bs

/-- The canonical form of memory: addresses strictly rising, no listed byte equal to the unlisted one. -/
abbrev Memory.wf (m : Memory) : Prop :=
  m.Pairwise (fun p q => p.1 < q.1) ∧ ∀ p ∈ m, p.2 ≠ unlistedByte

/-! ## The access primitives (R52 to R54, R59) -/

/-- The access widths (R59). -/
inductive Width where
  | byte
  | half
  | word
deriving DecidableEq, Repr

/-- How many bytes an access of a width moves. -/
def Width.bytes : Width → Nat
  | .byte => 1
  | .half => 2
  | .word => 4

/-- The bounds rule, on the exact sum (R52, D7). -/
abbrev InBounds (addr : Word) (w : Width) (s : State) : Prop :=
  addr.toNat + w.bytes ≤ s.cfg.memSize

/-- `MemRead(addr, n)` (R53). -/
def memRead (access : Access) (addr : Word) (w : Width) (s : State) : Except Fault Word :=
  if InBounds addr w s then .ok (wordOfBytes (readBytes s.mem addr.toNat w.bytes))
  else .error (.outOfBounds access addr w.bytes)

/-- The bytes `MemWrite(addr, n, v)` writes once it has checked the bound (R54). -/
def storeBytes (addr : Word) (w : Width) (v : Word) (m : Memory) : Memory :=
  writeBytes m addr.toNat (bytesOfWord w.bytes v)

/-- `MemWrite(addr, n, v)` (R54): the check comes first, so a faulting write changes nothing. -/
def memWrite (access : Access) (addr : Word) (w : Width) (v : Word) (s : State) : Except Fault State :=
  if InBounds addr w s then .ok { s with mem := storeBytes addr w v s.mem }
  else .error (.outOfBounds access addr w.bytes)

/-- Reading the word at the pc: alignment first, then the bound (R56, R57, R121 steps 2 and 3). -/
def fetch (s : State) : Except Fault Word :=
  if s.pc.toNat % 4 ≠ 0 then .error (.misalignedFetch s.pc)
  else memRead .fetch s.pc .word s

/-! ## Effect and commit (R122, R124) -/

/-- One memory write `MemWrite(addr, n, v)`, its bound already checked. -/
structure MemWrite where
  addr : Word
  width : Width
  value : Word
deriving DecidableEq, Repr

/-- What a completed instruction does: at most one register write, at most one memory write and the next
pc, `none` for `pc + 4` (R122, R124). -/
structure Effect where
  reg : Option (Reg × Word) := none
  mem : Option MemWrite := none
  target : Option Word := none
deriving DecidableEq, Repr

/-- The register half of a commit. -/
def commitReg (e : Effect) (s : State) : State :=
  match e.reg with
  | some (r, v) => writeX r v s
  | none => s

/-- The memory half of a commit. -/
def commitMem (e : Effect) (m : Memory) : Memory :=
  match e.mem with
  | some w => storeBytes w.addr w.width w.value m
  | none => m

/-- The next pc (R124): the target the instruction set, else `pc + 4` modulo 2^32. -/
def nextPc (e : Effect) (pc : Word) : Word :=
  match e.target with
  | some t => t
  | none => pc + 4

/-- Apply a whole effect record at once (R122). -/
def commit (e : Effect) (s : State) : State :=
  { commitReg e s with pc := nextPc e s.pc, mem := commitMem e s.mem }

/-- The instruction completes with an effect. -/
def complete (e : Effect) (s : State) : Result := .next (commit e s)

/-! ## Raising a fault (R13, R123, R246)

A fault is a halt of the `Step` call: no register saves the pc or a cause, no mode changes, no handler
runs, and the pc stays at the faulting instruction. So entering a fault is the outcome `fault` and nothing
else, and the state the host sees is the one before the instruction (`stepCall` in Engine.lean). There is
no return from it (R247): the host calls `Step` again. -/

/-- `raise Fault(kind, info)` (R13). -/
def raise (f : Fault) : Result := .fault f

/-- The fault of a word that is no executable instruction though the table names it (R230 to R233). -/
def raiseUnmapped (word : Word) : Result := raise (.invalidEncoding .unmapped word)

/-! ## The shapes meanings share -/

/-- Write one register and go on to the next instruction. -/
def writeResult (rd : Reg) (v : Word) (s : State) : Result := complete { reg := some (rd, v) } s

/-- Write the link `pc + 4` and go to a target (R150, R151). -/
def jumpAndLink (rd : Reg) (target : Word) (s : State) : Result :=
  complete { reg := some (rd, s.pc + 4), target := some target } s

/-- Go to a target if the condition holds (R152 to R157). -/
def branchIf (taken : Bool) (target : Word) (s : State) : Result :=
  complete { target := if taken then some target else none } s

/-- Read memory and write the extended value to a register; the bound is checked even when `rd` is `x0`
(R170, R179). -/
def loadTo (rd : Reg) (addr : Word) (w : Width) (extend : Word → Word) (s : State) : Result :=
  match memRead .load addr w s with
  | .ok v => writeResult rd (extend v) s
  | .error f => raise f

/-- Write the low bytes of a value to memory, if they are in bounds (R170, R54). -/
def storeTo (addr : Word) (w : Width) (v : Word) (s : State) : Result :=
  if InBounds addr w s then complete { mem := some ⟨addr, w, v⟩ } s
  else raise (.outOfBounds .store addr w.bytes)

end Sys2Proof.Machine
end

