-- ==== Sys2Proof/Machine/Operands.lean ====
section
/-! DEFINITION. The 32-bit values of an instruction's operands (R85 to R90), the addressing mode (R170) and
the extensions loads make (R9). -/

namespace Sys2Proof.Machine

/-- `imm_I` and `imm_S`: sign-extended from 12 bits (R85, R86). -/
def signExtend12 (imm : BitVec 12) : Word := imm.signExtend 32

/-- `imm_B`: sign-extended from 13 bits (R87). -/
def signExtend13 (off : BitVec 13) : Word := off.signExtend 32

/-- `imm_J`: sign-extended from 21 bits (R89). -/
def signExtend21 (off : BitVec 21) : Word := off.signExtend 32

/-- `imm_U`: the 20 bits in place, bits 11 to 0 zero (R88). -/
def upperImmediate (imm : BitVec 20) : Word := imm ++ 0#12

/-- A shift amount from the instruction (R90): 0 to 31, not sign-extended. -/
def shiftOfField (shamt : BitVec 5) : Nat := shamt.toNat

/-- A shift amount from a register: `x[rs2] & 0x1F` (R212, R216, R217). -/
def shiftOfWord (v : Word) : Nat := (v &&& 0x1F).toNat

/-- Base plus offset, modulo 2^32 (R170). -/
def effectiveAddress (rs1 : Reg) (imm : BitVec 12) (s : State) : Word :=
  readX rs1 s + signExtend12 imm

/-- `sext_8` (R9). -/
def signExtend8 (v : Word) : Word := (v.setWidth 8).signExtend 32

/-- `sext_16` (R9). -/
def signExtend16 (v : Word) : Word := (v.setWidth 16).signExtend 32

/-- `zext_8` (R9). -/
def zeroExtend8 (v : Word) : Word := (v.setWidth 8).setWidth 32

/-- `zext_16` (R9). -/
def zeroExtend16 (v : Word) : Word := (v.setWidth 16).setWidth 32

/-- A word load takes the value as it is (R173). -/
def unextended (v : Word) : Word := v

/-- A branch's target, `pc + imm_B` (R152). -/
def branchTarget (off : BitVec 13) (s : State) : Word := s.pc + signExtend13 off

/-- The target of `jal`, `pc + imm_J` (R150). -/
def jalTarget (off : BitVec 21) (s : State) : Word := s.pc + signExtend21 off

/-- The target of `jalr`, `(x[rs1] + imm_I) & 0xFFFF_FFFE` (R151). -/
def jalrTarget (rs1 : Reg) (imm : BitVec 12) (s : State) : Word :=
  (readX rs1 s + signExtend12 imm) &&& 0xFFFFFFFE

end Sys2Proof.Machine
end

