-- ==== Sys2Proof/Machine/Flags.lean ====
section
/-! DEFINITION. The block has no status flag and no condition code (R27): a comparison decides a branch or
writes 0 or 1 to a register, and no arithmetic reports carry or overflow (R15). These are the
comparisons. -/

namespace Sys2Proof.Machine

/-- `bool_to_u32` (R10). -/
def boolToWord (c : Bool) : Word := if c then 1 else 0

/-- `<s`: compares two's-complement readings (R8). -/
def lessSigned (a b : Word) : Bool := decide (a.toInt < b.toInt)

/-- `<u`: compares unsigned readings (R8). -/
def lessUnsigned (a b : Word) : Bool := decide (a.toNat < b.toNat)

end Sys2Proof.Machine
end

