-- ==== Sys2Proof/Machine/AluImm.lean ====
section
/-! DEFINITION. The nine register-immediate operations (44_integer_immediate.md). -/

namespace Sys2Proof.Machine

/-- R190. -/
def execAddi (rd rs1 : Reg) (imm : BitVec 12) (s : State) : Result :=
  writeResult rd (readX rs1 s + signExtend12 imm) s

/-- R191. -/
def execSlti (rd rs1 : Reg) (imm : BitVec 12) (s : State) : Result :=
  writeResult rd (boolToWord (lessSigned (readX rs1 s) (signExtend12 imm))) s

/-- R192: the immediate is sign-extended, then compared unsigned. -/
def execSltiu (rd rs1 : Reg) (imm : BitVec 12) (s : State) : Result :=
  writeResult rd (boolToWord (lessUnsigned (readX rs1 s) (signExtend12 imm))) s

/-- R193. -/
def execXori (rd rs1 : Reg) (imm : BitVec 12) (s : State) : Result :=
  writeResult rd (readX rs1 s ^^^ signExtend12 imm) s

/-- R194. -/
def execOri (rd rs1 : Reg) (imm : BitVec 12) (s : State) : Result :=
  writeResult rd (readX rs1 s ||| signExtend12 imm) s

/-- R195. -/
def execAndi (rd rs1 : Reg) (imm : BitVec 12) (s : State) : Result :=
  writeResult rd (readX rs1 s &&& signExtend12 imm) s

/-- R196. -/
def execSlli (rd rs1 : Reg) (shamt : BitVec 5) (s : State) : Result :=
  writeResult rd (readX rs1 s <<< shiftOfField shamt) s

/-- R197. -/
def execSrli (rd rs1 : Reg) (shamt : BitVec 5) (s : State) : Result :=
  writeResult rd (readX rs1 s >>> shiftOfField shamt) s

/-- R198. -/
def execSrai (rd rs1 : Reg) (shamt : BitVec 5) (s : State) : Result :=
  writeResult rd ((readX rs1 s).sshiftRight (shiftOfField shamt)) s

end Sys2Proof.Machine
end

