-- ==== Sys2Proof/Machine/AluReg.lean ====
section
/-! DEFINITION. The ten register-register operations (45_integer_register.md). -/

namespace Sys2Proof.Machine

/-- R210. -/
def execAdd (rd rs1 rs2 : Reg) (s : State) : Result :=
  writeResult rd (readX rs1 s + readX rs2 s) s

/-- R211. -/
def execSub (rd rs1 rs2 : Reg) (s : State) : Result :=
  writeResult rd (readX rs1 s - readX rs2 s) s

/-- R212. -/
def execSll (rd rs1 rs2 : Reg) (s : State) : Result :=
  writeResult rd (readX rs1 s <<< shiftOfWord (readX rs2 s)) s

/-- R213. -/
def execSlt (rd rs1 rs2 : Reg) (s : State) : Result :=
  writeResult rd (boolToWord (lessSigned (readX rs1 s) (readX rs2 s))) s

/-- R214. -/
def execSltu (rd rs1 rs2 : Reg) (s : State) : Result :=
  writeResult rd (boolToWord (lessUnsigned (readX rs1 s) (readX rs2 s))) s

/-- R215. -/
def execXor (rd rs1 rs2 : Reg) (s : State) : Result :=
  writeResult rd (readX rs1 s ^^^ readX rs2 s) s

/-- R216. -/
def execSrl (rd rs1 rs2 : Reg) (s : State) : Result :=
  writeResult rd (readX rs1 s >>> shiftOfWord (readX rs2 s)) s

/-- R217. -/
def execSra (rd rs1 rs2 : Reg) (s : State) : Result :=
  writeResult rd ((readX rs1 s).sshiftRight (shiftOfWord (readX rs2 s))) s

/-- R218. -/
def execOr (rd rs1 rs2 : Reg) (s : State) : Result :=
  writeResult rd (readX rs1 s ||| readX rs2 s) s

/-- R219. -/
def execAnd (rd rs1 rs2 : Reg) (s : State) : Result :=
  writeResult rd (readX rs1 s &&& readX rs2 s) s

end Sys2Proof.Machine
end

