-- ==== Sys2Proof/Machine/Control.lean ====
section
/-! DEFINITION. Jumps and branches (42_control_transfer.md). A target is not checked when it is written; it
faults, if it does, at the next fetch (R158). -/

namespace Sys2Proof.Machine

/-- R150. -/
def execJal (rd : Reg) (off : BitVec 21) (s : State) : Result :=
  jumpAndLink rd (jalTarget off s) s

/-- R151: the target uses the old `x[rs1]` (D4). -/
def execJalr (rd rs1 : Reg) (imm : BitVec 12) (s : State) : Result :=
  jumpAndLink rd (jalrTarget rs1 imm s) s

/-- R152. -/
def execBeq (rs1 rs2 : Reg) (off : BitVec 13) (s : State) : Result :=
  branchIf (readX rs1 s == readX rs2 s) (branchTarget off s) s

/-- R153. -/
def execBne (rs1 rs2 : Reg) (off : BitVec 13) (s : State) : Result :=
  branchIf (readX rs1 s != readX rs2 s) (branchTarget off s) s

/-- R154. -/
def execBlt (rs1 rs2 : Reg) (off : BitVec 13) (s : State) : Result :=
  branchIf (lessSigned (readX rs1 s) (readX rs2 s)) (branchTarget off s) s

/-- R155. -/
def execBge (rs1 rs2 : Reg) (off : BitVec 13) (s : State) : Result :=
  branchIf (!lessSigned (readX rs1 s) (readX rs2 s)) (branchTarget off s) s

/-- R156. -/
def execBltu (rs1 rs2 : Reg) (off : BitVec 13) (s : State) : Result :=
  branchIf (lessUnsigned (readX rs1 s) (readX rs2 s)) (branchTarget off s) s

/-- R157: `>=u` is the negation of `<u`. -/
def execBgeu (rs1 rs2 : Reg) (off : BitVec 13) (s : State) : Result :=
  branchIf (!lessUnsigned (readX rs1 s) (readX rs2 s)) (branchTarget off s) s

end Sys2Proof.Machine
end

