-- ==== Sys2Proof/Machine/LoadStore.lean ====
section
/-! DEFINITION. Loads and stores (43_loads_stores.md): one addressing mode, no alignment requirement, the
bounds rule only (R170). -/

namespace Sys2Proof.Machine

/-- R171. -/
def execLb (rd rs1 : Reg) (imm : BitVec 12) (s : State) : Result :=
  loadTo rd (effectiveAddress rs1 imm s) .byte signExtend8 s

/-- R172. -/
def execLh (rd rs1 : Reg) (imm : BitVec 12) (s : State) : Result :=
  loadTo rd (effectiveAddress rs1 imm s) .half signExtend16 s

/-- R173. -/
def execLw (rd rs1 : Reg) (imm : BitVec 12) (s : State) : Result :=
  loadTo rd (effectiveAddress rs1 imm s) .word unextended s

/-- R174. -/
def execLbu (rd rs1 : Reg) (imm : BitVec 12) (s : State) : Result :=
  loadTo rd (effectiveAddress rs1 imm s) .byte zeroExtend8 s

/-- R175. -/
def execLhu (rd rs1 : Reg) (imm : BitVec 12) (s : State) : Result :=
  loadTo rd (effectiveAddress rs1 imm s) .half zeroExtend16 s

/-- R176. -/
def execSb (rs2 rs1 : Reg) (imm : BitVec 12) (s : State) : Result :=
  storeTo (effectiveAddress rs1 imm s) .byte (readX rs2 s) s

/-- R177. -/
def execSh (rs2 rs1 : Reg) (imm : BitVec 12) (s : State) : Result :=
  storeTo (effectiveAddress rs1 imm s) .half (readX rs2 s) s

/-- R178. -/
def execSw (rs2 rs1 : Reg) (imm : BitVec 12) (s : State) : Result :=
  storeTo (effectiveAddress rs1 imm s) .word (readX rs2 s) s

end Sys2Proof.Machine
end

