-- ==== Sys2Proof/Machine/System.lean ====
section
/-! DEFINITION. The rows of the table the block refuses (46_system.md): each raises
`Fault(InvalidEncoding, {Unmapped, word})`, the word being the instruction's own. -/

namespace Sys2Proof.Machine

/-- R230: every MISC-MEM word. -/
def execFence (fields : BitVec 25) (_s : State) : Result :=
  raiseUnmapped (encodeRefused fields 0b0001111)

/-- R231: the word `0x0000_0073`. -/
def execEcall (_s : State) : Result := raiseUnmapped 0x00000073

/-- R232: the word `0x0010_0073`. -/
def execEbreak (_s : State) : Result := raiseUnmapped 0x00100073

/-- R233: every other SYSTEM word. -/
def execSystemOther (fields : BitVec 25) (_s : State) : Result :=
  raiseUnmapped (encodeRefused fields 0b1110011)

end Sys2Proof.Machine
end

