-- ==== Sys2Proof/Machine/Upper.lean ====
section
/-! DEFINITION. The upper-immediate instructions (41_upper_immediate.md). -/

namespace Sys2Proof.Machine

/-- R140. -/
def execLui (rd : Reg) (imm : BitVec 20) (s : State) : Result :=
  writeResult rd (upperImmediate imm) s

/-- R141. -/
def execAuipc (rd : Reg) (imm : BitVec 20) (s : State) : Result :=
  writeResult rd (s.pc + upperImmediate imm) s

end Sys2Proof.Machine
end

