-- ==== Sys2Proof/Machine/Step.lean ====
section
/-! DEFINITION. One turn of the loop of R121: fetch, decode, execute, commit. The budget and the loop
itself are in Engine.lean. -/

namespace Sys2Proof.Machine

/-- One instruction, or the first check that fails (R121, R245). -/
def step (s : State) : Host.Outcome State Fault Refusal :=
  match fetch s with
  | .error f => .fault f
  | .ok word =>
    match decode word with
    | .error reason => .fault (.invalidEncoding reason word)
    | .ok i => exec i s

/-- The state with an instruction word stored where the next fetch reads: at the pc if an aligned word
fits there, and at address 0, with the pc set to it, where the pc cannot be fetched from, as after
`Reset()` (R272, R273; log entry 18). -/
def State.withFetchWord (s : State) (nbits w : Nat) : State :=
  let entry : Word := if s.pc.toNat % 4 = 0 ∧ InBounds s.pc .word s then s.pc else 0
  { s with pc := entry, mem := writeBytes s.mem entry.toNat (tableWordBytes nbits w) }

end Sys2Proof.Machine
end

