-- ==== Sys2Proof/Machine/HostPorts.lean ====
section
/-! DEFINITION. The host's ports to registers, memory and breakpoint table (R131; `Step` is in
Engine.lean). Each is one indivisible function on the state (R130). -/

namespace Sys2Proof.Machine

/-! ## Reset (R270) -/

/-- `Reset()`: `x1` to `x31` and the pc take `POISON`, memory and breakpoint table stay. -/
def resetRegisters (s : State) : State :=
  { s with x := Vector.replicate 31 s.cfg.poison, pc := s.cfg.poison }

/-! ## Memory ports (R69, R70) -/

/-- `ReadMemory8/16/32`: no alignment needed, out of bounds is the port's result (R69, D15). -/
def readMemory (w : Width) (addr : Word) (s : State) : Except Fault Word := memRead .hostRead addr w s

/-- `WriteMemory8/16/32` (R69, D15). -/
def writeMemory (w : Width) (addr v : Word) (s : State) : Except Fault State :=
  memWrite .hostWrite addr w v s

/-- The image loader's effect (R70): every byte, or none and a refusal (D22). -/
def loadImage (base : Word) (blob : List Byte) (s : State) : Option State :=
  if base.toNat + blob.length ≤ s.cfg.memSize then
    some { s with mem := writeBytes s.mem base.toNat blob }
  else none

/-! ## Register names (R23, R24) -/

/-- The canonical names by index (R23). -/
def canonicalNames : List String :=
  ["x0", "x1", "x2", "x3", "x4", "x5", "x6", "x7", "x8", "x9", "x10", "x11"] ++
  ["x12", "x13", "x14", "x15", "x16", "x17", "x18", "x19", "x20", "x21"] ++
  ["x22", "x23", "x24", "x25", "x26", "x27", "x28", "x29", "x30", "x31", "pc"]

/-- The ABI names by index (R23). -/
def abiNames : List String :=
  ["zero", "ra", "sp", "gp", "tp", "t0", "t1", "t2", "s0", "s1", "a0", "a1"] ++
  ["a2", "a3", "a4", "a5", "a6", "a7", "s2", "s3", "s4", "s5"] ++
  ["s6", "s7", "s8", "s9", "s10", "s11", "t3", "t4", "t5", "t6", "pc"]

/-- The place of a name in a list, by exact match. -/
def indexOfName (name : String) : List String → Option Nat
  | [] => none
  | n :: rest => if n = name then some 0 else (indexOfName name rest).map (· + 1)

/-- The register-file index a name resolves to (R24). -/
def registerIndex (name : String) : Option Nat :=
  match indexOfName name canonicalNames with
  | some i => some i
  | none => indexOfName name abiNames

/-! ## Register ports (R34, R35) -/

/-- What `GetRegister` is asked for: `name_or_index`. -/
inductive RegisterKey where
  | index (i : Nat)
  | name (n : String)
deriving DecidableEq, Repr

/-- Register-file entry `i`, or not-found outside `0..32` (R34, D16). -/
def registerAt (i : Nat) (s : State) : Option Word :=
  if h : i < 32 then some (readX ⟨i, h⟩ s)
  else if i = 32 then some s.pc
  else none

/-- `GetRegister(name_or_index)` (R34). -/
def getRegister (key : RegisterKey) (s : State) : Option Word :=
  match key with
  | .index i => registerAt i s
  | .name n =>
    match registerIndex n with
    | some i => registerAt i s
    | none => none

/-- `SetRegister(index, value)` (R35): no check of the pc's value, no effect on `x0` or outside `0..32`. -/
def setRegister (i : Nat) (v : Word) (s : State) : State :=
  if h : i < 32 then writeX ⟨i, h⟩ v s
  else if i = 32 then { s with pc := v }
  else s

/-! ## Breakpoint ports (R30, R36) -/

/-- The table entry of a byte address, `addr >> 2` (R30, D12). -/
def breakpointEntry (addr : Word) : Nat := addr.toNat / 4

/-- The set entries without one. -/
def clearEntry (l : List Nat) (k : Nat) : List Nat := l.filter (· != k)

/-- The set entries with one more, put before the first higher one. -/
def insertEntry : List Nat → Nat → List Nat
  | [], k => [k]
  | j :: rest, k => if k < j then k :: j :: rest else j :: insertEntry rest k

/-- The canonical form of the table: set entries strictly rising and below `NBKPT` (R30). -/
abbrev BreakpointsWf (n : Nat) (l : List Nat) : Prop := l.Pairwise (· < ·) ∧ ∀ k ∈ l, k < n

/-- `GetBreakpoint(addr)` (R36): false beyond the memory. -/
def getBreakpoint (addr : Word) (s : State) : Bool :=
  decide (addr.toNat < s.cfg.memSize) && s.bkpts.contains (breakpointEntry addr)

/-- `SetBreakpoint(addr, b)` (R36): no effect beyond the memory. -/
def setBreakpoint (addr : Word) (b : Bool) (s : State) : State :=
  if addr.toNat < s.cfg.memSize then
    let cleared := clearEntry s.bkpts (breakpointEntry addr)
    { s with bkpts := if b then insertEntry cleared (breakpointEntry addr) else cleared }
  else s

end Sys2Proof.Machine
end

