-- ==== Sys2Proof/Machine/Toolchain.lean ====
section
/-! DEFINITION. The assembler and disassembler of 30_encoding.md section 5. They are software around the
block (R5) and touch no state. The assembler is modelled on lines already cut into a mnemonic and tokens,
since the spec gives no spacing, comment or label rules (N13), and the disassembler gives the fields of a
line, since the radix and spacing it prints are open (N12; log entry 17). -/

namespace Sys2Proof.Machine

/-- An operand of a line as written (R97): a register token, an immediate token, or `imm(reg)` with its two
tokens. -/
inductive AsmToken where
  | reg (name : String)
  | imm (token : String)
  | memory (token : String) (base : String)
deriving DecidableEq, Repr

/-- A line of assembly text, cut into its tokens: what `Assemble` is given (R101). -/
structure AsmText where
  mnemonic : String
  operands : List AsmToken
deriving DecidableEq, Repr

/-- An operand with its immediate read as a number: a register name, an immediate, or `imm(reg)`. -/
inductive AsmOperand where
  | reg (name : String)
  | imm (value : Int)
  | memory (imm : Int) (base : String)
deriving DecidableEq, Repr

/-- The fields of a line, its immediates read as numbers: what a comparison of lines compares, the radix and
the spacing of a printed line being open (R104, U10). -/
structure AsmLine where
  mnemonic : String
  operands : List AsmOperand
deriving DecidableEq, Repr

/-! ## Immediate tokens (R99) -/

/-- The value of a decimal digit. -/
def decimalDigit (c : Char) : Option Nat :=
  if 48 ≤ c.toNat ∧ c.toNat ≤ 57 then some (c.toNat - 48) else none

/-- The value of a hexadecimal digit, of either case. -/
def hexDigit (c : Char) : Option Nat :=
  if 97 ≤ c.toNat ∧ c.toNat ≤ 102 then some (c.toNat - 87)
  else if 65 ≤ c.toNat ∧ c.toNat ≤ 70 then some (c.toNat - 55)
  else decimalDigit c

/-- The number a run of digits writes, after the value `acc`. -/
def digitsValue (digit : Char → Option Nat) (radix : Nat) : List Char → Nat → Option Nat
  | [], acc => some acc
  | c :: cs, acc =>
    match digit c with
    | some d => digitsValue digit radix cs (acc * radix + d)
    | none => none

/-- A value fits a signed or unsigned 32-bit value (R99). -/
def immediateFits (v : Int) : Bool := decide (-(2 ^ 31) ≤ v ∧ v ≤ 2 ^ 32 - 1)

/-- A value that fits, else nothing. -/
def fitting (v : Int) : Option Int := if immediateFits v then some v else none

/-- An immediate token's value: `0x` and 1 to 8 hexadecimal digits, or decimal digits with an optional
leading minus, in `-2^31 .. 2^32-1` (R99). -/
def immediateToken : List Char → Option Int
  | '0' :: 'x' :: d :: ds =>
    if ds.length < 8 then (digitsValue hexDigit 16 (d :: ds) 0).bind fun v => fitting v else none
  | '-' :: d :: ds => (digitsValue decimalDigit 10 (d :: ds) 0).bind fun v => fitting (-(v : Int))
  | d :: ds => (digitsValue decimalDigit 10 (d :: ds) 0).bind fun v => fitting v
  | [] => none

/-- An operand's immediate read as a number: nothing where the token is malformed or out of range (R99). -/
def readToken : AsmToken → Option AsmOperand
  | .reg name => some (.reg name)
  | .imm token => (immediateToken token.toList).map .imm
  | .memory token base => (immediateToken token.toList).map fun v => .memory v base

/-- All operands read, or nothing where one of them cannot be. -/
def readTokens : List AsmToken → Option (List AsmOperand)
  | [] => some []
  | t :: ts =>
    match readToken t, readTokens ts with
    | some o, some os => some (o :: os)
    | _, _ => none

/-- The fields of a line as written, or nothing where an immediate token is malformed or out of range. -/
def readText (t : AsmText) : Option AsmLine := (readTokens t.operands).map fun os => ⟨t.mnemonic, os⟩

/-! ## Shapes and grammar (R97, R105) -/

/-- The operand shape of a mnemonic and the instruction it makes. -/
inductive AsmShape where
  | upper (mk : Reg → BitVec 20 → Instr)
  | jump (mk : Reg → BitVec 21 → Instr)
  | load (mk : Reg → Reg → BitVec 12 → Instr)
  | immediate (mk : Reg → Reg → BitVec 12 → Instr)
  | shift (mk : Reg → Reg → BitVec 5 → Instr)
  | store (mk : Reg → Reg → BitVec 12 → Instr)
  | branch (mk : Reg → Reg → BitVec 13 → Instr)
  | register (mk : Reg → Reg → Reg → Instr)
  | zero (i : Instr)

/-- The shape of an instruction mnemonic that is not of the register-register shape. -/
def asmImmediateGrammar : List (String × AsmShape) :=
  [("lui", .upper .lui), ("auipc", .upper .auipc), ("jal", .jump .jal), ("jalr", .load .jalr),
    ("beq", .branch .beq), ("bne", .branch .bne), ("blt", .branch .blt), ("bge", .branch .bge),
    ("bltu", .branch .bltu), ("bgeu", .branch .bgeu),
    ("lb", .load .lb), ("lh", .load .lh), ("lw", .load .lw), ("lbu", .load .lbu), ("lhu", .load .lhu),
    ("sb", .store .sb), ("sh", .store .sh), ("sw", .store .sw),
    ("addi", .immediate .addi), ("slti", .immediate .slti), ("sltiu", .immediate .sltiu),
    ("xori", .immediate .xori), ("ori", .immediate .ori), ("andi", .immediate .andi),
    ("slli", .shift .slli), ("srli", .shift .srli), ("srai", .shift .srai)]

/-- The shape of a register-register or zero-operand mnemonic. -/
def asmRegisterGrammar : List (String × AsmShape) :=
  [("add", .register .add), ("sub", .register .sub), ("sll", .register .sll), ("slt", .register .slt),
    ("sltu", .register .sltu), ("xor", .register .xor), ("srl", .register .srl), ("sra", .register .sra),
    ("or", .register .or), ("and", .register .and),
    ("ecall", .zero .ecall), ("ebreak", .zero .ebreak)]

/-- The mnemonics the assembler knows: the 37 instructions, `ecall` and `ebreak` (R102, R105). -/
def asmGrammar : List (String × AsmShape) := asmImmediateGrammar ++ asmRegisterGrammar

/-- The shape of a mnemonic, by exact match. -/
def shapeOf (mnemonic : String) : List (String × AsmShape) → Option AsmShape
  | [] => none
  | (n, sh) :: rest => if n = mnemonic then some sh else shapeOf mnemonic rest

/-- A register operand (R98): a name of R24 that a 5-bit field can hold, so not `pc`. -/
def asmRegister (name : String) : Option Reg :=
  match registerIndex name with
  | some i => if h : i < 32 then some ⟨i, h⟩ else none
  | none => none

/-- An immediate operand modulo 2^32, if it is in the range of R99. -/
def asmImmediate (v : Int) : Option Word := if immediateFits v then some (BitVec.ofInt 32 v) else none

/-! ## Assemble (R100 to R103) -/

/-- What assembling a line gives. -/
inductive Assembled where
  /-- The word, or the failure sentinel 0 (R101). -/
  | word (w : Word)
  /-- A shift amount outside 0 to 31: the spec does not say how it is placed (R100, N13). -/
  | unstated
deriving DecidableEq, Repr

/-- The failure sentinel (R101). -/
def asmSentinel : Assembled := .word 0

/-- The word of an instruction whose operands all matched, else the sentinel. -/
def assembled : Option Instr → Assembled
  | some i => .word (encode i)
  | none => asmSentinel

/-- Put the operands of a line into its shape; immediates are cut to their field without a diagnostic,
bit 0 of a branch or `jal` offset included (R100). -/
def assembleShape (shape : AsmShape) (operands : List AsmOperand) : Assembled :=
  match shape, operands with
  | .upper mk, [.reg rd, .imm v] =>
    assembled do return mk (← asmRegister rd) ((← asmImmediate v).extractLsb' 0 20)
  | .jump mk, [.reg rd, .imm v] =>
    assembled do return mk (← asmRegister rd) ((← asmImmediate v).extractLsb' 1 20 ++ 0#1)
  | .load mk, [.reg rd, .memory v rs1] =>
    assembled do return mk (← asmRegister rd) (← asmRegister rs1) ((← asmImmediate v).extractLsb' 0 12)
  | .immediate mk, [.reg rd, .reg rs1, .imm v] =>
    assembled do return mk (← asmRegister rd) (← asmRegister rs1) ((← asmImmediate v).extractLsb' 0 12)
  | .shift mk, [.reg rd, .reg rs1, .imm v] =>
    match asmRegister rd, asmRegister rs1, asmImmediate v with
    | some d, some r, some w => if w.toNat < 32 then .word (encode (mk d r (w.extractLsb' 0 5))) else .unstated
    | _, _, _ => asmSentinel
  | .store mk, [.reg rs2, .memory v rs1] =>
    assembled do return mk (← asmRegister rs2) (← asmRegister rs1) ((← asmImmediate v).extractLsb' 0 12)
  | .branch mk, [.reg rs1, .reg rs2, .imm v] =>
    assembled do
      return mk (← asmRegister rs1) (← asmRegister rs2) ((← asmImmediate v).extractLsb' 1 12 ++ 0#1)
  | .register mk, [.reg rd, .reg rs1, .reg rs2] =>
    assembled do return mk (← asmRegister rd) (← asmRegister rs1) (← asmRegister rs2)
  | .zero i, [] => .word (encode i)
  | _, _ => asmSentinel

/-- Assembling the fields of a line: the sentinel for an unknown mnemonic or operands that do not match
(R101). -/
def assemble (line : AsmLine) : Assembled :=
  match shapeOf line.mnemonic asmGrammar with
  | some shape => assembleShape shape line.operands
  | none => asmSentinel

/-- `Assemble(line)` (R101). An immediate token that R99 rejects makes its grammar fail to match, and no other
grammar takes the mnemonic (R97), so the line assembles to the sentinel. -/
def assembleText (t : AsmText) : Assembled :=
  match readText t with
  | some line => assemble line
  | none => asmSentinel

/-! ## Disassemble (R104) -/

/-- The ABI name of a register (R23, R104). -/
def abiName (r : Reg) : String := abiNames.getD r.val ""

/-- The operands of an instruction by the template of its shape (R97), the upper immediate unshifted
(R103). The rows that never execute have none here: `disassemble` does not reach them. -/
def asmOperands : Instr → List AsmOperand
  | .lui rd imm => [.reg (abiName rd), .imm imm.toNat]
  | .auipc rd imm => [.reg (abiName rd), .imm imm.toNat]
  | .jal rd off => [.reg (abiName rd), .imm off.toInt]
  | .jalr rd rs1 imm => [.reg (abiName rd), .memory imm.toInt (abiName rs1)]
  | .beq rs1 rs2 off => [.reg (abiName rs1), .reg (abiName rs2), .imm off.toInt]
  | .bne rs1 rs2 off => [.reg (abiName rs1), .reg (abiName rs2), .imm off.toInt]
  | .blt rs1 rs2 off => [.reg (abiName rs1), .reg (abiName rs2), .imm off.toInt]
  | .bge rs1 rs2 off => [.reg (abiName rs1), .reg (abiName rs2), .imm off.toInt]
  | .bltu rs1 rs2 off => [.reg (abiName rs1), .reg (abiName rs2), .imm off.toInt]
  | .bgeu rs1 rs2 off => [.reg (abiName rs1), .reg (abiName rs2), .imm off.toInt]
  | .lb rd rs1 imm => [.reg (abiName rd), .memory imm.toInt (abiName rs1)]
  | .lh rd rs1 imm => [.reg (abiName rd), .memory imm.toInt (abiName rs1)]
  | .lw rd rs1 imm => [.reg (abiName rd), .memory imm.toInt (abiName rs1)]
  | .lbu rd rs1 imm => [.reg (abiName rd), .memory imm.toInt (abiName rs1)]
  | .lhu rd rs1 imm => [.reg (abiName rd), .memory imm.toInt (abiName rs1)]
  | .sb rs2 rs1 imm => [.reg (abiName rs2), .memory imm.toInt (abiName rs1)]
  | .sh rs2 rs1 imm => [.reg (abiName rs2), .memory imm.toInt (abiName rs1)]
  | .sw rs2 rs1 imm => [.reg (abiName rs2), .memory imm.toInt (abiName rs1)]
  | .addi rd rs1 imm => [.reg (abiName rd), .reg (abiName rs1), .imm imm.toInt]
  | .slti rd rs1 imm => [.reg (abiName rd), .reg (abiName rs1), .imm imm.toInt]
  | .sltiu rd rs1 imm => [.reg (abiName rd), .reg (abiName rs1), .imm imm.toInt]
  | .xori rd rs1 imm => [.reg (abiName rd), .reg (abiName rs1), .imm imm.toInt]
  | .ori rd rs1 imm => [.reg (abiName rd), .reg (abiName rs1), .imm imm.toInt]
  | .andi rd rs1 imm => [.reg (abiName rd), .reg (abiName rs1), .imm imm.toInt]
  | .slli rd rs1 shamt => [.reg (abiName rd), .reg (abiName rs1), .imm shamt.toNat]
  | .srli rd rs1 shamt => [.reg (abiName rd), .reg (abiName rs1), .imm shamt.toNat]
  | .srai rd rs1 shamt => [.reg (abiName rd), .reg (abiName rs1), .imm shamt.toNat]
  | .add rd rs1 rs2 => [.reg (abiName rd), .reg (abiName rs1), .reg (abiName rs2)]
  | .sub rd rs1 rs2 => [.reg (abiName rd), .reg (abiName rs1), .reg (abiName rs2)]
  | .sll rd rs1 rs2 => [.reg (abiName rd), .reg (abiName rs1), .reg (abiName rs2)]
  | .slt rd rs1 rs2 => [.reg (abiName rd), .reg (abiName rs1), .reg (abiName rs2)]
  | .sltu rd rs1 rs2 => [.reg (abiName rd), .reg (abiName rs1), .reg (abiName rs2)]
  | .xor rd rs1 rs2 => [.reg (abiName rd), .reg (abiName rs1), .reg (abiName rs2)]
  | .srl rd rs1 rs2 => [.reg (abiName rd), .reg (abiName rs1), .reg (abiName rs2)]
  | .sra rd rs1 rs2 => [.reg (abiName rd), .reg (abiName rs1), .reg (abiName rs2)]
  | .or rd rs1 rs2 => [.reg (abiName rd), .reg (abiName rs1), .reg (abiName rs2)]
  | .and rd rs1 rs2 => [.reg (abiName rd), .reg (abiName rs1), .reg (abiName rs2)]
  | .fence _ => []
  | .ecall => []
  | .ebreak => []
  | .systemOther _ => []

/-- `Disassemble(word)`: the line of an executable instruction, or a decode failure (R104). -/
def disassemble (w : Word) : Option AsmLine :=
  match decodeExecutable w with
  | .ok i => some { mnemonic := i.mnemonic, operands := asmOperands i }
  | .error _ => none

end Sys2Proof.Machine
end

