-- ==== Sys2Proof/Machine/Engine.lean ====
section
/-! DEFINITION. The `Step(cycles)` call (R120 to R128), the engine's RUNNING/HALTED state machine inside it
(R128), and the host surface as a whole: one call, a session, and the boot sequence (R130, R131, R273). -/

namespace Sys2Proof.Machine

/-! ## The Step call -/

/-- The `status` of a `Step` call (R120). -/
inductive Status where
  | ok
  | fault (f : Fault)
  /-- The model declined an instruction. No run ends so: every row of the table has its meaning. -/
  | refused (r : Refusal)
deriving DecidableEq, Repr

/-- The numeric code of a fault kind (R240; the numbers are the spec's own labels, D10). -/
def Fault.code : Fault → Nat
  | .misalignedFetch _ => 1
  | .invalidEncoding _ _ => 2
  | .outOfBounds _ _ _ => 3

/-- What a `Step` call leaves: the machine, the budget not executed and the status (R120). -/
structure StepResult where
  state : State
  remaining : Nat
  status : Status
deriving DecidableEq, Repr

/-- `Step(cycles)` (R121): the first fault ends the call, the state is that of the last completed
instruction and the faulting one's unit is not used (R123). -/
def stepCall : Nat → State → StepResult
  | 0, s => ⟨s, 0, .ok⟩
  | n + 1, s =>
    match step s with
    | .next t => stepCall n t
    | .fault f => ⟨s, n + 1, .fault f⟩
    | .refused r => ⟨s, n + 1, .refused r⟩

/-- The engine's two states (R128). -/
inductive EngineState where
  | running
  | halted
deriving DecidableEq, Repr

/-- A `Step` call in progress: what exists only during the call (R32, R128), around the machine. -/
structure Call where
  engine : EngineState
  remaining : Nat
  status : Status
  state : State
deriving DecidableEq, Repr

/-- The call starts RUNNING from the current state whatever happened before it (R128). -/
def Call.start (cycles : Nat) (s : State) : Call := ⟨.running, cycles, .ok, s⟩

/-- One turn of the loop of R121. A halted engine stays as it is. -/
def Call.tick (c : Call) : Call :=
  match c.engine with
  | .halted => c
  | .running =>
    match c.remaining with
    | 0 => { c with engine := .halted, status := .ok }
    | n + 1 =>
      match step c.state with
      | .next t => { c with remaining := n, state := t }
      | .fault f => { c with engine := .halted, status := .fault f }
      | .refused r => { c with engine := .halted, status := .refused r }

/-- `k` turns of the loop. -/
def Call.ticks : Nat → Call → Call
  | 0, c => c
  | k + 1, c => Call.ticks k c.tick

/-! ## The host surface (R131) -/

/-- A call of one port, or the bootstrap's image load. -/
inductive HostCall where
  | reset
  | readMemory (w : Width) (addr : Word)
  | writeMemory (w : Width) (addr v : Word)
  | getRegister (key : RegisterKey)
  | setRegister (i : Nat) (v : Word)
  | step (cycles : Nat)
  | getBreakpoint (addr : Word)
  | setBreakpoint (addr : Word) (b : Bool)
  | loadImage (base : Word) (blob : List Byte)
deriving DecidableEq, Repr

/-- What a port answers. -/
inductive Reply where
  /-- The port has no result. -/
  | done
  | value (v : Word)
  /-- `GetRegister` of no register (R34). -/
  | notFound
  | flag (b : Bool)
  /-- A memory port out of bounds (R69). -/
  | fault (f : Fault)
  /-- An image that does not fit (R70). -/
  | imageRefused
  | stepped (remaining : Nat) (status : Status)
deriving DecidableEq, Repr

/-- One port call: the state after it and the answer. -/
def hostCall (c : HostCall) (s : State) : State × Reply :=
  match c with
  | .reset => (resetRegisters s, .done)
  | .readMemory w addr =>
    match readMemory w addr s with
    | .ok v => (s, .value v)
    | .error f => (s, .fault f)
  | .writeMemory w addr v =>
    match writeMemory w addr v s with
    | .ok t => (t, .done)
    | .error f => (s, .fault f)
  | .getRegister key =>
    match getRegister key s with
    | some v => (s, .value v)
    | none => (s, .notFound)
  | .setRegister i v => (setRegister i v s, .done)
  | .step cycles =>
    let r := stepCall cycles s
    (r.state, .stepped r.remaining r.status)
  | .getBreakpoint addr => (s, .flag (getBreakpoint addr s))
  | .setBreakpoint addr b => (setBreakpoint addr b s, .done)
  | .loadImage base blob =>
    match loadImage base blob s with
    | some t => (t, .done)
    | none => (s, .imageRefused)

/-- A session: calls in order, each complete before the next (R130). -/
def runSession : List HostCall → State → State × List Reply
  | [], s => (s, [])
  | c :: rest, s =>
    let (t, r) := hostCall c s
    let (u, rs) := runSession rest t
    (u, r :: rs)

/-- What a host does before its first `Step` (R273): create the machine, place the image, set the pc, the
registers the program reads and the breakpoints. `none` where the image does not fit (R70). -/
def boot (c : Config) (base : Word) (image : List Byte) (entry : Word) (regs : List (Nat × Word))
    (breakpoints : List Word) : Option State :=
  match loadImage base image (State.powerOn c) with
  | none => none
  | some s =>
    let s := setRegister 32 entry s
    let s := regs.foldl (fun s p => setRegister p.1 p.2 s) s
    some (breakpoints.foldl (fun s a => setBreakpoint a true s) s)

end Sys2Proof.Machine
end

