-- ==== Sys2Proof/Safety.lean ====
section
/-! DEFINITION. The terms statements use: the invariant of the machine, and what an instruction's effect
amounts to, said through the reads of one register and of one byte. -/

namespace Sys2Proof.Machine

/-! ## The invariant -/

/-- Legal parameters (R6), memory in canonical form with no byte beyond `MEM_SIZE` (R50), a breakpoint table
in canonical form with no entry beyond `NBKPT` (R30). The pc is free: it has no alignment constraint
(R26). -/
def State.Inv (s : State) : Prop :=
  s.cfg.Legal ∧ s.mem.wf ∧ (∀ p ∈ s.mem, p.1 < s.cfg.memSize) ∧ BreakpointsWf s.cfg.numBreakpoints s.bkpts

end Sys2Proof.Machine

namespace Sys2Proof

/-! ## Which instructions do what (R22, R124, R170) -/

/-- The three stores. -/
def Instr.isStore : Instr → Bool
  | .lui _ _ | .auipc _ _ | .jal _ _ => false
  | .jalr _ _ _ => false
  | .beq _ _ _ | .bne _ _ _ | .blt _ _ _ | .bge _ _ _ | .bltu _ _ _ | .bgeu _ _ _ => false
  | .lb _ _ _ | .lh _ _ _ | .lw _ _ _ | .lbu _ _ _ | .lhu _ _ _ => false
  | .sb _ _ _ | .sh _ _ _ | .sw _ _ _ => true
  | .addi _ _ _ | .slti _ _ _ | .sltiu _ _ _ | .xori _ _ _ | .ori _ _ _ | .andi _ _ _ => false
  | .slli _ _ _ | .srli _ _ _ | .srai _ _ _ => false
  | .add _ _ _ | .sub _ _ _ | .sll _ _ _ | .slt _ _ _ | .sltu _ _ _ => false
  | .xor _ _ _ | .srl _ _ _ | .sra _ _ _ | .or _ _ _ | .and _ _ _ => false
  | .fence _ => false
  | .ecall | .ebreak => false
  | .systemOther _ => false

/-- The instructions that may set the pc themselves: `jal`, `jalr` and the six branches (R124). -/
def Instr.isTransfer : Instr → Bool
  | .lui _ _ | .auipc _ _ => false
  | .jal _ _ => true
  | .jalr _ _ _ => true
  | .beq _ _ _ | .bne _ _ _ | .blt _ _ _ | .bge _ _ _ | .bltu _ _ _ | .bgeu _ _ _ => true
  | .lb _ _ _ | .lh _ _ _ | .lw _ _ _ | .lbu _ _ _ | .lhu _ _ _ => false
  | .sb _ _ _ | .sh _ _ _ | .sw _ _ _ => false
  | .addi _ _ _ | .slti _ _ _ | .sltiu _ _ _ | .xori _ _ _ | .ori _ _ _ | .andi _ _ _ => false
  | .slli _ _ _ | .srli _ _ _ | .srai _ _ _ => false
  | .add _ _ _ | .sub _ _ _ | .sll _ _ _ | .slt _ _ _ | .sltu _ _ _ => false
  | .xor _ _ _ | .srl _ _ _ | .sra _ _ _ | .or _ _ _ | .and _ _ _ => false
  | .fence _ => false
  | .ecall | .ebreak => false
  | .systemOther _ => false

/-- The register an instruction writes, `rd`; branches, stores and the rows that never execute write none
(R22). -/
def Instr.destination : Instr → Option Reg
  | .lui rd _ | .auipc rd _ | .jal rd _ => some rd
  | .jalr rd _ _ => some rd
  | .beq _ _ _ | .bne _ _ _ | .blt _ _ _ | .bge _ _ _ | .bltu _ _ _ | .bgeu _ _ _ => none
  | .lb rd _ _ | .lh rd _ _ | .lw rd _ _ | .lbu rd _ _ | .lhu rd _ _ => some rd
  | .sb _ _ _ | .sh _ _ _ | .sw _ _ _ => none
  | .addi rd _ _ | .slti rd _ _ | .sltiu rd _ _ | .xori rd _ _ | .ori rd _ _ | .andi rd _ _ => some rd
  | .slli rd _ _ | .srli rd _ _ | .srai rd _ _ => some rd
  | .add rd _ _ | .sub rd _ _ | .sll rd _ _ | .slt rd _ _ | .sltu rd _ _ => some rd
  | .xor rd _ _ | .srl rd _ _ | .sra rd _ _ | .or rd _ _ | .and rd _ _ => some rd
  | .fence _ => none
  | .ecall | .ebreak => none
  | .systemOther _ => none

end Sys2Proof

namespace Sys2Proof.Machine

/-- The address and the number of bytes of a store, as its meaning computes them (R170). -/
def storeSpan (i : Instr) (s : State) : Option (Word × Nat) :=
  match i with
  | .sb _ rs1 imm => some (effectiveAddress rs1 imm s, 1)
  | .sh _ rs1 imm => some (effectiveAddress rs1 imm s, 2)
  | .sw _ rs1 imm => some (effectiveAddress rs1 imm s, 4)
  | .lui _ _ | .auipc _ _ | .jal _ _ | .jalr _ _ _ => none
  | .beq _ _ _ | .bne _ _ _ | .blt _ _ _ | .bge _ _ _ | .bltu _ _ _ | .bgeu _ _ _ => none
  | .lb _ _ _ | .lh _ _ _ | .lw _ _ _ | .lbu _ _ _ | .lhu _ _ _ => none
  | .addi _ _ _ | .slti _ _ _ | .sltiu _ _ _ | .xori _ _ _ | .ori _ _ _ | .andi _ _ _ => none
  | .slli _ _ _ | .srli _ _ _ | .srai _ _ _ => none
  | .add _ _ _ | .sub _ _ _ | .sll _ _ _ | .slt _ _ _ | .sltu _ _ _ => none
  | .xor _ _ _ | .srl _ _ _ | .sra _ _ _ | .or _ _ _ | .and _ _ _ => none
  | .fence _ | .ecall | .ebreak | .systemOther _ => none

/-- The address and the number of bytes of a load, as its meaning computes them (R170). -/
def loadSpan (i : Instr) (s : State) : Option (Word × Nat) :=
  match i with
  | .lb _ rs1 imm | .lbu _ rs1 imm => some (effectiveAddress rs1 imm s, 1)
  | .lh _ rs1 imm | .lhu _ rs1 imm => some (effectiveAddress rs1 imm s, 2)
  | .lw _ rs1 imm => some (effectiveAddress rs1 imm s, 4)
  | .lui _ _ | .auipc _ _ | .jal _ _ | .jalr _ _ _ => none
  | .beq _ _ _ | .bne _ _ _ | .blt _ _ _ | .bge _ _ _ | .bltu _ _ _ | .bgeu _ _ _ => none
  | .sb _ _ _ | .sh _ _ _ | .sw _ _ _ => none
  | .addi _ _ _ | .slti _ _ _ | .sltiu _ _ _ | .xori _ _ _ | .ori _ _ _ | .andi _ _ _ => none
  | .slli _ _ _ | .srli _ _ _ | .srai _ _ _ => none
  | .add _ _ _ | .sub _ _ _ | .sll _ _ _ | .slt _ _ _ | .sltu _ _ _ => none
  | .xor _ _ _ | .srl _ _ _ | .sra _ _ _ | .or _ _ _ | .and _ _ _ => none
  | .fence _ | .ecall | .ebreak | .systemOther _ => none

/-! ## Formats and immediates (R84 to R90) -/

/-- The field layouts of R84; the rows that never execute have none here. -/
inductive Format where
  | r
  | i
  | iShift
  | s
  | b
  | u
  | j
  | refused
deriving DecidableEq, Repr

/-- The layout R84 gives an instruction. -/
def formatOf : Instr → Format
  | .lui _ _ | .auipc _ _ => .u
  | .jal _ _ => .j
  | .jalr _ _ _ => .i
  | .beq _ _ _ | .bne _ _ _ | .blt _ _ _ | .bge _ _ _ | .bltu _ _ _ | .bgeu _ _ _ => .b
  | .lb _ _ _ | .lh _ _ _ | .lw _ _ _ | .lbu _ _ _ | .lhu _ _ _ => .i
  | .sb _ _ _ | .sh _ _ _ | .sw _ _ _ => .s
  | .addi _ _ _ | .slti _ _ _ | .sltiu _ _ _ | .xori _ _ _ | .ori _ _ _ | .andi _ _ _ => .i
  | .slli _ _ _ | .srli _ _ _ | .srai _ _ _ => .iShift
  | .add _ _ _ | .sub _ _ _ | .sll _ _ _ | .slt _ _ _ | .sltu _ _ _ => .r
  | .xor _ _ _ | .srl _ _ _ | .sra _ _ _ | .or _ _ _ | .and _ _ _ => .r
  | .fence _ | .ecall | .ebreak | .systemOther _ => .refused

/-- The 32-bit immediate an instruction's meaning uses, the shift amount included (R85 to R90). -/
def immediateOf : Instr → Option Word
  | .lui _ imm | .auipc _ imm => some (upperImmediate imm)
  | .jal _ off => some (signExtend21 off)
  | .jalr _ _ imm => some (signExtend12 imm)
  | .beq _ _ off | .bne _ _ off | .blt _ _ off => some (signExtend13 off)
  | .bge _ _ off | .bltu _ _ off | .bgeu _ _ off => some (signExtend13 off)
  | .lb _ _ imm | .lh _ _ imm | .lw _ _ imm | .lbu _ _ imm | .lhu _ _ imm => some (signExtend12 imm)
  | .sb _ _ imm | .sh _ _ imm | .sw _ _ imm => some (signExtend12 imm)
  | .addi _ _ imm | .slti _ _ imm | .sltiu _ _ imm => some (signExtend12 imm)
  | .xori _ _ imm | .ori _ _ imm | .andi _ _ imm => some (signExtend12 imm)
  | .slli _ _ shamt | .srli _ _ shamt | .srai _ _ shamt => some (BitVec.ofNat 32 (shiftOfField shamt))
  | .add _ _ _ | .sub _ _ _ | .sll _ _ _ | .slt _ _ _ | .sltu _ _ _ => none
  | .xor _ _ _ | .srl _ _ _ | .sra _ _ _ | .or _ _ _ | .and _ _ _ => none
  | .fence _ | .ecall | .ebreak | .systemOther _ => none

/-! ## What stays and what changes -/

/-- Every general register reads as before. -/
def RegistersKept (s t : State) : Prop := ∀ r : Reg, readX r t = readX r s

/-- Register `rd` reads `v` and every other register as before; `x0` reads 0 whatever `rd` is (R21). -/
def RegisterWritten (s t : State) (rd : Reg) (v : Word) : Prop :=
  ∀ r : Reg, readX r t = if r = 0 then 0 else if r = rd then v else readX r s

/-- Every byte of memory reads as before. -/
def MemoryKept (s t : State) : Prop := ∀ a : Nat, readByte t.mem a = readByte s.mem a

/-- The `n` bytes from `addr` up hold the low bytes of `v`, the least significant first, and every other
byte of memory reads as before (R54). -/
def MemoryWritten (s t : State) (addr : Word) (n : Nat) (v : Word) : Prop :=
  ∀ a : Nat, readByte t.mem a =
    if addr.toNat ≤ a ∧ a < addr.toNat + n then (v >>> (8 * (a - addr.toNat))).setWidth 8
    else readByte s.mem a

/-- The breakpoint table and the parameters are as before. -/
def TableKept (s t : State) : Prop := t.bkpts = s.bkpts ∧ t.cfg = s.cfg

/-- From `s` to `t` register `rd` takes `v` and the pc `target`, and nothing else changes. -/
def WritesRegister (s t : State) (rd : Reg) (v target : Word) : Prop :=
  RegisterWritten s t rd v ∧ t.pc = target ∧ MemoryKept s t ∧ TableKept s t

/-- From `s` to `t` the pc takes `target` and nothing else changes. -/
def MovesPc (s t : State) (target : Word) : Prop :=
  RegistersKept s t ∧ t.pc = target ∧ MemoryKept s t ∧ TableKept s t

/-- From `s` to `t` the `n` bytes from `addr` up take the low bytes of `v`, the pc advances by 4, and
nothing else changes. -/
def StoresBytes (s t : State) (addr : Word) (n : Nat) (v : Word) : Prop :=
  RegistersKept s t ∧ t.pc = s.pc + 4 ∧ MemoryWritten s t addr n v ∧ TableKept s t

/-! ## Completing -/

/-- Executing `i` in `s` completes with register `rd` taking `v`, the pc advancing by 4. -/
def CompletesWriting (i : Instr) (s : State) (rd : Reg) (v : Word) : Prop :=
  ∃ t, exec i s = .next t ∧ WritesRegister s t rd v (s.pc + 4)

/-- Executing `i` in `s` completes with the pc at `target` and nothing else changed. -/
def CompletesMoving (i : Instr) (s : State) (target : Word) : Prop :=
  ∃ t, exec i s = .next t ∧ MovesPc s t target

/-- Executing `i` in `s` completes with the low `n` bytes of `v` stored from `addr` up. -/
def CompletesStoring (i : Instr) (s : State) (addr : Word) (n : Nat) (v : Word) : Prop :=
  ∃ t, exec i s = .next t ∧ StoresBytes s t addr n v

/-! ## Fetching -/

/-- The four bytes at the pc, the one at the pc least significant (R56). -/
def wordAtPc (s : State) : Word :=
  readByte s.mem (s.pc.toNat + 3) ++ readByte s.mem (s.pc.toNat + 2) ++
    readByte s.mem (s.pc.toNat + 1) ++ readByte s.mem s.pc.toNat

/-- The checks before decoding pass: the pc is 4-aligned and its word lies in memory (R121 steps 2, 3). -/
abbrev Fetchable (s : State) : Prop := s.pc.toNat % 4 = 0 ∧ s.pc.toNat + 4 ≤ s.cfg.memSize

/-- An outcome with its next state, if it has one, changed by `f`. -/
def mapNext (f : State → State) : Result → Result
  | .next t => .next (f t)
  | .fault e => .fault e
  | .refused r => .refused r

/-- The state with another breakpoint table. -/
def withBreakpoints (l : List Nat) (s : State) : State := { s with bkpts := l }

/-- The state with another `POISON`. -/
def withPoison (p : Word) (s : State) : State := { s with cfg := { s.cfg with poison := p } }

end Sys2Proof.Machine
end

