-- ==== Sys2Proof/Certificates/Slice0/Obligations.lean ====
section
/-! DEFINITION. The statements about the block, for the provers. Each docstring names the rules of spec/ it
formalises. Where the spec marks a point as its own decision (D<n>), as derived, or as general knowledge
(G<n>), the docstring names that mark, and the statement is listed with basis 'derived'. -/

open Sys2Proof Sys2Proof.Machine

/-! ## Encoding -/

/-- Decoding the bytes of a well-formed instruction gives it back with every operand, and leaves the bytes
after it (30_encoding.md R80 to R92; the numeric values are general knowledge, G1, log entry 4). That `fence`,
`ecall`, `ebreak` and `system-other` words decode to an instruction at all is the model's own naming, a DESIGN
CHOICE of log entry 15: R93 makes them `Invalid(Unmapped)`. -/
def Obligations.DecodeOfEncodeIsTheInstruction : Prop :=
  ∀ (i : Instr) (rest : List Byte), i.wellFormed = true →
    decode (encode i) = .ok i ∧ decodeBytes (encodeBytes i ++ rest) = .ok (i, rest)

/-- A word that decodes is the word of the instruction it decodes to, which is well-formed: no two words
share an instruction and no bit of a word is dropped (30_encoding.md R84 to R92; G1, log entry 4). For the four
rows that never execute it rests on the model's own naming, a DESIGN CHOICE of log entry 15. -/
def Obligations.EncodeOfDecodeIsTheWord : Prop :=
  ∀ (w : Word) (i : Instr), decode w = .ok i → i.wellFormed = true ∧ encode i = w

/-- The decoder and opcode_table.json agree in both directions: a decoded word has the fixed bits of its
instruction's row, and a word with the fixed bits of a row decodes to that row's instruction; only
`system-other` gives way, to `ecall` and `ebreak` (R91, R92 and the table's rows; G1, log entry 4). That the
four rows that never execute decode to an instruction is the model's own naming, a DESIGN CHOICE of log entry
15: R93 and R230 to R233 make their words `Invalid(Unmapped)`. -/
def Obligations.DecodeFollowsTheOpcodeTable : Prop :=
  (∀ (w : Word) (i : Instr), decode w = .ok i →
    ∃ row ∈ opcodeTable, row.mnemonic = i.mnemonic ∧ row.Matches w) ∧
  (∀ (w : Word), ∀ row ∈ opcodeTable, row.Matches w →
    ∃ i, decode w = .ok i ∧
      (i.mnemonic = row.mnemonic ∨
        (row.mnemonic = "system-other" ∧
          ((w = 0x00000073 ∧ i = .ecall) ∨ (w = 0x00100073 ∧ i = .ebreak)))))

/-- Which words `decode` of R93 maps to `Invalid(LengthBits)` and to `Invalid(Unmapped)`, class by class as
R94 lists them (strictness is the spec's decision D2, log entry 6; numeric values G1, log entry 4). -/
def Obligations.InvalidEncodingsAreTheListedOnes : Prop :=
  ∀ w : Word,
    (decodeExecutable w = .error .lengthBits ↔ w.extractLsb' 0 2 ≠ 0b11#2) ∧
    (decodeExecutable w = .error .unmapped ↔
      w.extractLsb' 0 2 = 0b11#2 ∧
      let major := w.extractLsb' 2 5
      let f3 := w.extractLsb' 12 3
      let f7 := w.extractLsb' 25 7
      (major ∉ [0b01101#5, 0b00101#5, 0b11011#5, 0b11001#5, 0b11000#5, 0b00000#5, 0b01000#5, 0b00100#5,
          0b01100#5] ∨
        (major = 0b11001#5 ∧ f3 ≠ 0b000#3) ∨
        (major = 0b11000#5 ∧ f3 ∈ [0b010#3, 0b011#3]) ∨
        (major = 0b00000#5 ∧ f3 ∈ [0b011#3, 0b110#3, 0b111#3]) ∨
        (major = 0b01000#5 ∧ f3 ∉ [0b000#3, 0b001#3, 0b010#3]) ∨
        (major = 0b00100#5 ∧ f3 = 0b001#3 ∧ f7 ≠ 0b0000000#7) ∨
        (major = 0b00100#5 ∧ f3 = 0b101#3 ∧ f7 ∉ [0b0000000#7, 0b0100000#7]) ∨
        (major = 0b01100#5 ∧ f7 ∉ [0b0000000#7, 0b0100000#7]) ∨
        (major = 0b01100#5 ∧ f7 = 0b0100000#7 ∧ f3 ∉ [0b000#3, 0b101#3])))

/-- The immediate each decoded I, S, B and U instruction uses, bit by bit from its word, and the shift amount
(R85, R86 as C3 reads it, R87, R88, R90). -/
def Obligations.ImmediatesComeFromTheListedBits : Prop :=
  ∀ (w : Word) (i : Instr), decode w = .ok i →
    (formatOf i = .i → ∃ v, immediateOf i = some v ∧
      ∀ k < 32, v.getLsbD k = if 11 ≤ k then w.getLsbD 31 else w.getLsbD (k + 20)) ∧
    (formatOf i = .s → ∃ v, immediateOf i = some v ∧
      ∀ k < 32, v.getLsbD k =
        if 11 ≤ k then w.getLsbD 31 else if 5 ≤ k then w.getLsbD (k + 20) else w.getLsbD (k + 7)) ∧
    (formatOf i = .b → ∃ v, immediateOf i = some v ∧
      ∀ k < 32, v.getLsbD k =
        if 12 ≤ k then w.getLsbD 31 else if k = 11 then w.getLsbD 7
        else if 5 ≤ k then w.getLsbD (k + 20) else if 1 ≤ k then w.getLsbD (k + 7) else false) ∧
    (formatOf i = .u → ∃ v, immediateOf i = some v ∧
      ∀ k < 32, v.getLsbD k = if 12 ≤ k then w.getLsbD k else false) ∧
    (formatOf i = .iShift → ∃ v, immediateOf i = some v ∧
      ∀ k < 32, v.getLsbD k = if k < 5 then w.getLsbD (k + 20) else false)

/-- The immediate `jal` uses, bit by bit from its word (R89; that bit 0 is 0 the spec derives, N19). -/
def Obligations.JumpImmediateComesFromTheListedBits : Prop :=
  ∀ (w : Word) (i : Instr), decode w = .ok i → formatOf i = .j →
    ∃ v, immediateOf i = some v ∧
      ∀ k < 32, v.getLsbD k =
        if 20 ≤ k then w.getLsbD 31 else if 12 ≤ k then w.getLsbD k else if k = 11 then w.getLsbD 20
        else if 1 ≤ k then w.getLsbD (k + 20) else false

/-- One word of each family, from the spec's examples, decodes to the instruction it stands for
(95_test_vectors.md; G1, log entry 4). The last clause, that the `ebreak` word decodes to `ebreak`, is the
model's own naming, a DESIGN CHOICE of log entry 15: R93 makes that word `Invalid(Unmapped)`. -/
def Obligations.SampleWordsDecode : Prop :=
  decode 0x123452B7 = .ok (.lui 5 0x12345) ∧
  decode 0xFF9FF0EF = .ok (.jal 1 (-8)) ∧
  decode 0x005280E7 = .ok (.jalr 1 5 5) ∧
  decode 0xFE209EE3 = .ok (.bne 1 2 (-4)) ∧
  decode 0xFFC52283 = .ok (.lw 5 10 (-4)) ∧
  decode 0xFE652E23 = .ok (.sw 6 10 (-4)) ∧
  decode 0xFFF33293 = .ok (.sltiu 5 6 (-1)) ∧
  decode 0x40435293 = .ok (.srai 5 6 4) ∧
  decode 0x402081B3 = .ok (.sub 3 1 2) ∧
  decode 0x00100073 = .ok .ebreak

/-! ## Fetch, decode, execute -/

/-- A step fetches the little-endian word at an aligned pc in bounds, and where it decodes runs the
instruction it decodes to at that state, adding nothing around it (R56, R121). For the four rows that never
execute, the decoded instruction is the model's own naming, a DESIGN CHOICE of log entry 15. -/
def Obligations.StepRunsTheDecodedInstruction : Prop :=
  ∀ (s : State) (i : Instr), Fetchable s → decode (wordAtPc s) = .ok i →
    fetch s = .ok (wordAtPc s) ∧ step s = exec i s

/-- A word whose low two bits are not 11 raises `InvalidEncoding` with reason `LengthBits` when a step
reaches it, the all-zero word among them (R81). -/
def Obligations.LengthBitsFault : Prop :=
  ∀ s : State, Fetchable s →
    ((wordAtPc s).extractLsb' 0 2 ≠ 0b11#2 →
      step s = .fault (.invalidEncoding .lengthBits (wordAtPc s))) ∧
    (wordAtPc s = 0 → step s = .fault (.invalidEncoding .lengthBits 0))

/-- The first check to fail, in the order of R245, decides what a `Step` call reports: a zero budget, then
the pc's alignment, the fetch's bound, the length bits, the decoder, and last the bound of a load's or
store's access; the fault's info is that of R121, R170 and R243. The three bounds are on the exact sum (the
spec's decision D7, log entry 8), the address of a load or store wraps (D9, log entry 9), and which words the
decoder refuses rests on D2, D19 and G1 (log entries 4, 6 and 15). -/
def Obligations.FirstFailingCheckDecides : Prop :=
  ∀ (s : State) (n : Nat),
    stepCall 0 s = ⟨s, 0, .ok⟩ ∧
    (s.pc.toNat % 4 ≠ 0 → stepCall (n + 1) s = ⟨s, n + 1, .fault (.misalignedFetch s.pc)⟩) ∧
    (s.pc.toNat % 4 = 0 → s.cfg.memSize < s.pc.toNat + 4 →
      stepCall (n + 1) s = ⟨s, n + 1, .fault (.outOfBounds .fetch s.pc 4)⟩) ∧
    (Fetchable s → (wordAtPc s).extractLsb' 0 2 ≠ 0b11#2 →
      stepCall (n + 1) s = ⟨s, n + 1, .fault (.invalidEncoding .lengthBits (wordAtPc s))⟩) ∧
    (Fetchable s → (wordAtPc s).extractLsb' 0 2 = 0b11#2 → (∀ i, decodeExecutable (wordAtPc s) ≠ .ok i) →
      stepCall (n + 1) s = ⟨s, n + 1, .fault (.invalidEncoding .unmapped (wordAtPc s))⟩) ∧
    (∀ i rs1 imm size, Fetchable s → decodeExecutable (wordAtPc s) = .ok i →
      ((∃ rd, i = .lb rd rs1 imm ∨ i = .lbu rd rs1 imm) ∧ size = 1 ∨
        (∃ rd, i = .lh rd rs1 imm ∨ i = .lhu rd rs1 imm) ∧ size = 2 ∨
        (∃ rd, i = .lw rd rs1 imm) ∧ size = 4) →
      s.cfg.memSize < (effectiveAddress rs1 imm s).toNat + size →
      stepCall (n + 1) s = ⟨s, n + 1, .fault (.outOfBounds .load (effectiveAddress rs1 imm s) size)⟩) ∧
    (∀ i ea size, Fetchable s → decodeExecutable (wordAtPc s) = .ok i → storeSpan i s = some (ea, size) →
      s.cfg.memSize < ea.toNat + size →
      stepCall (n + 1) s = ⟨s, n + 1, .fault (.outOfBounds .store ea size)⟩)

/-- Every fault of a step is one of the three kinds, with the info and for the reason R241 to R243 give it: an
out-of-bounds load or store is that of the decoded load or store, at its own address and width. A step never
reports a host port's access, and no instruction is declined by the model (R240; the words that are no
executable instruction rest on D2 and D19, log entries 6 and 15). -/
def Obligations.StepFaultsOnlyForTheListedReasons : Prop :=
  ∀ s : State, (∀ r, step s ≠ .refused r) ∧
    ∀ f, step s = .fault f →
      (f = .misalignedFetch s.pc ∧ s.pc.toNat % 4 ≠ 0) ∨
      (f = .outOfBounds .fetch s.pc 4 ∧ s.pc.toNat % 4 = 0 ∧ s.cfg.memSize < s.pc.toNat + 4) ∨
      (∃ reason, f = .invalidEncoding reason (wordAtPc s) ∧ Fetchable s ∧
        decodeExecutable (wordAtPc s) = .error reason) ∨
      (∃ i ea size, f = .outOfBounds .load ea size ∧ Fetchable s ∧
        decodeExecutable (wordAtPc s) = .ok i ∧ loadSpan i s = some (ea, size) ∧
        s.cfg.memSize < ea.toNat + size) ∨
      (∃ i ea size, f = .outOfBounds .store ea size ∧ Fetchable s ∧
        decodeExecutable (wordAtPc s) = .ok i ∧ storeSpan i s = some (ea, size) ∧
        s.cfg.memSize < ea.toNat + size)

/-! ## The Step call -/

/-- A fault ends the call with the state after the last completed instruction: the budget up to it was used
and completed, the faulting instruction's unit and all after it were not, and it is the step from that very
state that faults, so no register, pc or byte of it was written (R123). -/
def Obligations.FaultLeavesTheLastCompletedState : Prop :=
  ∀ (n r : Nat) (s t : State) (f : Fault), stepCall n s = ⟨t, r, .fault f⟩ →
    1 ≤ r ∧ r ≤ n ∧ stepCall (n - r) s = ⟨t, 0, .ok⟩ ∧ step t = .fault f

/-- The laws of the result (R127, which the spec derives from R121 and R123): a call either completes its
whole budget or reports a fault with some of it left, and the count alone tells which. -/
def Obligations.RemainingTellsCompletionFromFault : Prop :=
  ∀ (n : Nat) (s : State),
    (((stepCall n s).remaining = 0 ∧ (stepCall n s).status = .ok) ∨
      (∃ f, (stepCall n s).status = .fault f ∧
        1 ≤ (stepCall n s).remaining ∧ (stepCall n s).remaining ≤ n)) ∧
    (0 < (stepCall n s).remaining ↔ ∃ f, (stepCall n s).status = .fault f)

/-- A budget may be split: after `a` completed instructions a call of `b` more leaves and returns what one
call of `a + b` does (R127, derived by the spec). -/
def Obligations.SplitBudgetIsOneBudget : Prop :=
  ∀ (a b : Nat) (s t : State), stepCall a s = ⟨t, 0, .ok⟩ → stepCall (a + b) s = stepCall b t

/-- `Step(0)` returns `(0, Ok)` and changes nothing, whatever the pc (R126). -/
def Obligations.StepOfZeroDoesNothing : Prop :=
  ∀ s : State, stepCall 0 s = ⟨s, 0, .ok⟩ ∧ hostCall (.step 0) s = (s, .stepped 0 .ok)

/-- After a fault, a later call from the unchanged state meets the same fault at once (R128, where the spec
derives it). -/
def Obligations.FaultRepeatsUntilTheHostChangesTheState : Prop :=
  ∀ (n r m : Nat) (s t : State) (f : Fault), stepCall n s = ⟨t, r, .fault f⟩ →
    stepCall (m + 1) t = ⟨t, m + 1, .fault f⟩

/-- The engine's state machine and the call agree: `n + 1` turns of the loop from RUNNING end HALTED with
exactly the call's result, and no later turn changes anything (R121, R128; the small-step form is the
model's own, log entry 14). -/
def Obligations.LoopTurnsGiveTheStepCall : Prop :=
  ∀ (n k : Nat) (s : State),
    Call.ticks (n + 1 + k) (Call.start n s) =
      ⟨.halted, (stepCall n s).remaining, (stepCall n s).status, (stepCall n s).state⟩

/-- The engine neither reads nor writes the breakpoint table: with any other table a step, and a whole call,
does the same and keeps that table (R31). -/
def Obligations.ExecutionIgnoresBreakpoints : Prop :=
  ∀ (s : State) (l : List Nat) (n : Nat),
    step (withBreakpoints l s) = mapNext (withBreakpoints l) (step s) ∧
    stepCall n (withBreakpoints l s) =
      ⟨withBreakpoints l (stepCall n s).state, (stepCall n s).remaining, (stepCall n s).status⟩ ∧
    (stepCall n s).state.bkpts = s.bkpts

/-- Execution never uses the parameter `POISON`, so nothing that a step does rests on its value (R6, R274,
D5). -/
def Obligations.ExecutionIgnoresPoison : Prop :=
  ∀ (s : State) (p : Word), step (withPoison p s) = mapNext (withPoison p) (step s)

/-! ## Invariants and whole-machine frames -/

/-- The invariant holds in a newly created machine with any legal parameters, and in the model's reset state
(R271; D6 and D12 for the parameters and the table). -/
def Obligations.PowerOnMeetsTheInvariant : Prop :=
  (∀ c : Config, c.Legal → (State.powerOn c).Inv) ∧ State.reset.Inv

/-- From every state that meets the invariant, a step that completes leaves one that meets it: memory stays
canonical and within its capacity, the table canonical, the parameters legal (R50, R30, R6). -/
def Obligations.EveryStepKeepsTheInvariant : Prop :=
  ∀ s t : State, s.Inv → step s = .next t → t.Inv

/-- Every call of a host port, `Step` of any budget among them, keeps the invariant, and so does every
session (R131). -/
def Obligations.EveryHostCallKeepsTheInvariant : Prop :=
  (∀ (c : HostCall) (s : State), s.Inv → (hostCall c s).1.Inv) ∧
  (∀ (cs : List HostCall) (s : State), s.Inv → (runSession cs s).1.Inv)

/-- The frame of every instruction at once: a step that completes changes no general register but the decoded
instruction's destination, no byte but those of its store, the pc by 4 unless it is a jump or branch, and
neither the breakpoint table nor the parameters (R22, R122, R124, R61; operand order D4, log entry 7). -/
def Obligations.StepChangesOnlyWhatItsInstructionNames : Prop :=
  ∀ s t : State, step s = .next t → ∃ i, decode (wordAtPc s) = .ok i ∧ i.executes = true ∧
    (∀ r : Reg, readX r t ≠ readX r s → i.destination = some r ∧ r ≠ 0) ∧
    (∀ a : Nat, readByte t.mem a ≠ readByte s.mem a →
      ∃ addr size, storeSpan i s = some (addr, size) ∧ addr.toNat ≤ a ∧ a < addr.toNat + size) ∧
    (i.isTransfer = false → t.pc = s.pc + 4) ∧
    TableKept s t

/-- `x0` reads 0 in every state, to instructions and to the host, and nothing writes it: not an instruction's
register write, not `SetRegister(0, v)`, not `Reset()` (R21, R125; hardwiring is the spec's decision D3, log
entry 3). -/
def Obligations.RegisterZeroIsHardwired : Prop :=
  ∀ (s : State) (v : Word),
    readX 0 s = 0 ∧ writeX 0 v s = s ∧ setRegister 0 v s = s ∧
    getRegister (.index 0) s = some 0 ∧ getRegister (.name "x0") s = some 0 ∧
    getRegister (.name "zero") s = some 0 ∧ readX 0 (resetRegisters s) = 0

/-! ## Results: upper immediates, jumps and branches -/

/-- `lui` and `auipc` complete with these values, in every state (R140, R141; the formulas are general
knowledge, G3, log entry 5; sums wrap, D9, log entry 9). -/
def Obligations.UpperImmediateResults : Prop :=
  ∀ (s : State) (rd : Reg) (imm : BitVec 20),
    CompletesWriting (.lui rd imm) s rd (BitVec.ofNat 32 (imm.toNat * 2 ^ 12)) ∧
    CompletesWriting (.auipc rd imm) s rd (BitVec.ofNat 32 (s.pc.toNat + imm.toNat * 2 ^ 12))

/-- `jal` and `jalr` complete in every state: `rd` takes `pc + 4`, the pc the target, `jalr`'s from the old
`x[rs1]` with bit 0 cleared (R150, R151; operand order D4, log entry 7; wrap D9, log entry 9). -/
def Obligations.JumpsLinkAndSetThePc : Prop :=
  ∀ (s : State) (rd rs1 : Reg) (off : BitVec 21) (imm : BitVec 12),
    (∃ t, exec (.jal rd off) s = .next t ∧
      WritesRegister s t rd (BitVec.ofNat 32 (s.pc.toNat + 4)) (BitVec.ofInt 32 (s.pc.toInt + off.toInt))) ∧
    (∃ t, exec (.jalr rd rs1 imm) s = .next t ∧
      WritesRegister s t rd (BitVec.ofNat 32 (s.pc.toNat + 4))
        (BitVec.ofNat 32 (2 * ((readX rs1 s + imm.signExtend 32).toNat / 2))))

/-- The six branches complete in every state and change the pc alone: to the target where the comparison
holds, else by 4 (R152 to R157; the comparisons are general knowledge, G2, log entry 5). -/
def Obligations.BranchesMoveThePcAlone : Prop :=
  ∀ (s : State) (rs1 rs2 : Reg) (off : BitVec 13),
    let a := readX rs1 s
    let b := readX rs2 s
    let target := BitVec.ofInt 32 (s.pc.toInt + off.toInt)
    CompletesMoving (.beq rs1 rs2 off) s (if a = b then target else s.pc + 4) ∧
    CompletesMoving (.bne rs1 rs2 off) s (if a = b then s.pc + 4 else target) ∧
    CompletesMoving (.blt rs1 rs2 off) s (if a.toInt < b.toInt then target else s.pc + 4) ∧
    CompletesMoving (.bge rs1 rs2 off) s (if a.toInt ≥ b.toInt then target else s.pc + 4) ∧
    CompletesMoving (.bltu rs1 rs2 off) s (if a.toNat < b.toNat then target else s.pc + 4) ∧
    CompletesMoving (.bgeu rs1 rs2 off) s (if a.toNat ≥ b.toNat then target else s.pc + 4)

/-- A target that cannot be fetched from does not fault the jump or branch that set it: from every state where
the word fetched decodes to one, the step completes with that instruction's own effect, whatever its target,
and a budget of one ends `(0, Ok)`. The fault comes with the next fetch, at the target, with the jump's
effects kept and the unit of the instruction not fetched left over (R158, derived by the spec from R57, R121
and R124). -/
def Obligations.BadTargetFaultsAtTheNextFetch : Prop :=
  ∀ (s : State) (n : Nat) (i : Instr), Fetchable s → decode (wordAtPc s) = .ok i → i.isTransfer = true →
    ∃ t, exec i s = .next t ∧ step s = .next t ∧ stepCall 1 s = ⟨t, 0, .ok⟩ ∧
      (t.pc.toNat % 4 ≠ 0 → stepCall (n + 2) s = ⟨t, n + 1, .fault (.misalignedFetch t.pc)⟩) ∧
      (t.pc.toNat % 4 = 0 → t.cfg.memSize < t.pc.toNat + 4 →
        stepCall (n + 2) s = ⟨t, n + 1, .fault (.outOfBounds .fetch t.pc 4)⟩)

/-! ## Results: loads and stores -/

/-- The terms the other statements name an access by: `effectiveAddress` is the base plus the signed offset
modulo 2^32, `loadSpan` and `storeSpan` are that address with the mnemonic's width, and each is none for every
other instruction (R170; wrap D9, log entry 9). What `exec` does at these spans the four statements below
say. -/
def Obligations.LoadAndStoreSpansAreBasePlusOffset : Prop :=
  (∀ (s : State) (r rs1 : Reg) (imm : BitVec 12),
    let ea := BitVec.ofInt 32 ((readX rs1 s).toInt + imm.toInt)
    effectiveAddress rs1 imm s = ea ∧
    loadSpan (.lb r rs1 imm) s = some (ea, 1) ∧ loadSpan (.lbu r rs1 imm) s = some (ea, 1) ∧
    loadSpan (.lh r rs1 imm) s = some (ea, 2) ∧ loadSpan (.lhu r rs1 imm) s = some (ea, 2) ∧
    loadSpan (.lw r rs1 imm) s = some (ea, 4) ∧ storeSpan (.sb r rs1 imm) s = some (ea, 1) ∧
    storeSpan (.sh r rs1 imm) s = some (ea, 2) ∧ storeSpan (.sw r rs1 imm) s = some (ea, 4)) ∧
  (∀ (i : Instr) (s : State), i.mnemonic ∉ ["lb", "lh", "lw", "lbu", "lhu"] → loadSpan i s = none) ∧
  (∀ (i : Instr) (s : State), i.mnemonic ∉ ["sb", "sh", "sw"] → storeSpan i s = none)

/-- The five loads complete when their bytes are in bounds, at any alignment: `rd` takes the extended
little-endian value from the base plus the signed offset (R170 to R175, R179; alignment D8, log entry 8; wrap D9, log entry 9). -/
def Obligations.LoadsCompleteInBounds : Prop :=
  ∀ (s : State) (rd rs1 : Reg) (imm : BitVec 12),
    let ea := BitVec.ofInt 32 ((readX rs1 s).toInt + imm.toInt)
    let byte := fun k => readByte s.mem (ea.toNat + k)
    (ea.toNat + 1 ≤ s.cfg.memSize →
      CompletesWriting (.lb rd rs1 imm) s rd ((byte 0).signExtend 32) ∧
      CompletesWriting (.lbu rd rs1 imm) s rd (BitVec.ofNat 32 (byte 0).toNat)) ∧
    (ea.toNat + 2 ≤ s.cfg.memSize →
      CompletesWriting (.lh rd rs1 imm) s rd ((byte 1 ++ byte 0).signExtend 32) ∧
      CompletesWriting (.lhu rd rs1 imm) s rd (BitVec.ofNat 32 ((byte 1).toNat * 2 ^ 8 + (byte 0).toNat))) ∧
    (ea.toNat + 4 ≤ s.cfg.memSize →
      CompletesWriting (.lw rd rs1 imm) s rd (byte 3 ++ byte 2 ++ byte 1 ++ byte 0))

/-- The five loads fault when their bytes are not all in bounds, `rd = x0` or not, with the access's address
and width (R170, R171 to R175, R179; exact sum D7, log entry 8). -/
def Obligations.LoadsOutOfBoundsFault : Prop :=
  ∀ (s : State) (rd rs1 : Reg) (imm : BitVec 12),
    let ea := BitVec.ofInt 32 ((readX rs1 s).toInt + imm.toInt)
    (s.cfg.memSize < ea.toNat + 1 →
      exec (.lb rd rs1 imm) s = .fault (.outOfBounds .load ea 1) ∧
      exec (.lbu rd rs1 imm) s = .fault (.outOfBounds .load ea 1)) ∧
    (s.cfg.memSize < ea.toNat + 2 →
      exec (.lh rd rs1 imm) s = .fault (.outOfBounds .load ea 2) ∧
      exec (.lhu rd rs1 imm) s = .fault (.outOfBounds .load ea 2)) ∧
    (s.cfg.memSize < ea.toNat + 4 →
      exec (.lw rd rs1 imm) s = .fault (.outOfBounds .load ea 4))

/-- The three stores complete when their bytes are in bounds, at any alignment: the low bytes of `x[rs2]` go
to the base plus the signed offset, the least significant first, and every other byte, every register, the table and
the parameters stay (R170, R176 to R178; alignment D8, log entry 8; wrap D9, log entry 9). -/
def Obligations.StoresCompleteInBounds : Prop :=
  ∀ (s : State) (rs2 rs1 : Reg) (imm : BitVec 12),
    let ea := BitVec.ofInt 32 ((readX rs1 s).toInt + imm.toInt)
    (ea.toNat + 1 ≤ s.cfg.memSize → CompletesStoring (.sb rs2 rs1 imm) s ea 1 (readX rs2 s)) ∧
    (ea.toNat + 2 ≤ s.cfg.memSize → CompletesStoring (.sh rs2 rs1 imm) s ea 2 (readX rs2 s)) ∧
    (ea.toNat + 4 ≤ s.cfg.memSize → CompletesStoring (.sw rs2 rs1 imm) s ea 4 (readX rs2 s))

/-- The three stores fault when their bytes are not all in bounds, the ones below `MEM_SIZE` unwritten too
(R170, R176 to R178; exact sum D7, log entry 8). -/
def Obligations.StoresOutOfBoundsFault : Prop :=
  ∀ (s : State) (rs2 rs1 : Reg) (imm : BitVec 12),
    let ea := BitVec.ofInt 32 ((readX rs1 s).toInt + imm.toInt)
    (s.cfg.memSize < ea.toNat + 1 → exec (.sb rs2 rs1 imm) s = .fault (.outOfBounds .store ea 1)) ∧
    (s.cfg.memSize < ea.toNat + 2 → exec (.sh rs2 rs1 imm) s = .fault (.outOfBounds .store ea 2)) ∧
    (s.cfg.memSize < ea.toNat + 4 → exec (.sw rs2 rs1 imm) s = .fault (.outOfBounds .store ea 4))

/-! ## Results: integer operations -/

/-- `addi`, `slti` and `sltiu` complete with these values in every state (R190 to R192; the last two
formulas are general knowledge, G2, log entry 5). -/
def Obligations.ImmediateArithmeticResults : Prop :=
  ∀ (s : State) (rd rs1 : Reg) (imm : BitVec 12),
    let a := readX rs1 s
    CompletesWriting (.addi rd rs1 imm) s rd (BitVec.ofInt 32 (a.toInt + imm.toInt)) ∧
    CompletesWriting (.slti rd rs1 imm) s rd (if a.toInt < imm.toInt then 1 else 0) ∧
    CompletesWriting (.sltiu rd rs1 imm) s rd (if a.toNat < (imm.signExtend 32).toNat then 1 else 0)

/-- `xori`, `ori` and `andi` complete with these values in every state: bit by bit with the sign-extended
immediate (R193 to R195; general knowledge, G2, log entry 5). -/
def Obligations.ImmediateLogicResults : Prop :=
  ∀ (s : State) (rd rs1 : Reg) (imm : BitVec 12),
    let a := readX rs1 s
    let immBit := fun k => if k < 12 then imm.getLsbD k else imm.getLsbD 11
    ∃ x o n : Word,
      (∀ k < 32, x.getLsbD k = (a.getLsbD k ^^ immBit k) ∧ o.getLsbD k = (a.getLsbD k || immBit k) ∧
        n.getLsbD k = (a.getLsbD k && immBit k)) ∧
      CompletesWriting (.xori rd rs1 imm) s rd x ∧
      CompletesWriting (.ori rd rs1 imm) s rd o ∧
      CompletesWriting (.andi rd rs1 imm) s rd n

/-- `slli`, `srli` and `srai` complete with these values in every state: multiplication by a power of two
modulo 2^32, and floor division of the unsigned or the signed reading (R196 to R198; general knowledge, G2,
log entry 5). -/
def Obligations.ImmediateShiftResults : Prop :=
  ∀ (s : State) (rd rs1 : Reg) (shamt : BitVec 5),
    let a := readX rs1 s
    CompletesWriting (.slli rd rs1 shamt) s rd (BitVec.ofNat 32 (a.toNat * 2 ^ shamt.toNat)) ∧
    CompletesWriting (.srli rd rs1 shamt) s rd (BitVec.ofNat 32 (a.toNat / 2 ^ shamt.toNat)) ∧
    CompletesWriting (.srai rd rs1 shamt) s rd (BitVec.ofInt 32 (a.toInt / 2 ^ shamt.toNat))

/-- `add`, `sub`, `slt` and `sltu` complete with these values in every state (R210, R211, R213, R214; the
last two formulas are general knowledge, G2, log entry 5). -/
def Obligations.RegisterArithmeticResults : Prop :=
  ∀ (s : State) (rd rs1 rs2 : Reg),
    let a := readX rs1 s
    let b := readX rs2 s
    CompletesWriting (.add rd rs1 rs2) s rd (BitVec.ofNat 32 (a.toNat + b.toNat)) ∧
    CompletesWriting (.sub rd rs1 rs2) s rd (BitVec.ofInt 32 ((a.toNat : Int) - b.toNat)) ∧
    CompletesWriting (.slt rd rs1 rs2) s rd (if a.toInt < b.toInt then 1 else 0) ∧
    CompletesWriting (.sltu rd rs1 rs2) s rd (if a.toNat < b.toNat then 1 else 0)

/-- `xor`, `or` and `and` complete with these values in every state, bit by bit (R215, R218, R219; general
knowledge, G2, log entry 5). -/
def Obligations.RegisterLogicResults : Prop :=
  ∀ (s : State) (rd rs1 rs2 : Reg),
    let a := readX rs1 s
    let b := readX rs2 s
    ∃ x o n : Word,
      (∀ k < 32, x.getLsbD k = (a.getLsbD k ^^ b.getLsbD k) ∧ o.getLsbD k = (a.getLsbD k || b.getLsbD k) ∧
        n.getLsbD k = (a.getLsbD k && b.getLsbD k)) ∧
      CompletesWriting (.xor rd rs1 rs2) s rd x ∧
      CompletesWriting (.or rd rs1 rs2) s rd o ∧
      CompletesWriting (.and rd rs1 rs2) s rd n

/-- `sll`, `srl` and `sra` complete with these values in every state; the amount is `x[rs2]` modulo 32 (R212,
R216, R217; general knowledge, G2, log entry 5). -/
def Obligations.RegisterShiftResults : Prop :=
  ∀ (s : State) (rd rs1 rs2 : Reg),
    let a := readX rs1 s
    let n := (readX rs2 s).toNat % 32
    CompletesWriting (.sll rd rs1 rs2) s rd (BitVec.ofNat 32 (a.toNat * 2 ^ n)) ∧
    CompletesWriting (.srl rd rs1 rs2) s rd (BitVec.ofNat 32 (a.toNat / 2 ^ n)) ∧
    CompletesWriting (.sra rd rs1 rs2) s rd (BitVec.ofInt 32 (a.toInt / 2 ^ n))

/-! ## The rows that never execute -/

/-- `fence`, `ecall`, `ebreak` and every other SYSTEM word raise `InvalidEncoding {Unmapped, word}` always:
the four rows when executed, and every MISC-MEM or SYSTEM word a call meets, which stays at it with its unit
unused (R230 to R233; that they fault is the spec's decision D19, log entry 15; the numbers are general
knowledge, G5, log entry 4). -/
def Obligations.RefusedRowsRaiseInvalidEncoding : Prop :=
  (∀ (s : State) (fields : BitVec 25),
    exec (.fence fields) s = .fault (.invalidEncoding .unmapped (fields ++ 0b0001111#7)) ∧
    exec .ecall s = .fault (.invalidEncoding .unmapped 0x00000073) ∧
    exec .ebreak s = .fault (.invalidEncoding .unmapped 0x00100073) ∧
    exec (.systemOther fields) s = .fault (.invalidEncoding .unmapped (fields ++ 0b1110011#7))) ∧
  (∀ (s : State) (n : Nat), Fetchable s →
    ((wordAtPc s).extractLsb' 0 7 = 0b0001111#7 ∨ (wordAtPc s).extractLsb' 0 7 = 0b1110011#7) →
    stepCall (n + 1) s = ⟨s, n + 1, .fault (.invalidEncoding .unmapped (wordAtPc s))⟩)

/-! ## Memory -/

/-- `MemRead(addr, n)` and `MemWrite(addr, n, v)` as R53 and R54 define them: the bound on the exact sum comes
first; a read gives the bytes little-endian with zeros above; a write changes those bytes and nothing else. -/
def Obligations.MemReadAndMemWriteAreLittleEndian : Prop :=
  ∀ (s : State) (access : Access) (addr v : Word) (w : Width),
    (s.cfg.memSize < addr.toNat + w.bytes →
      memRead access addr w s = .error (.outOfBounds access addr w.bytes) ∧
      memWrite access addr w v s = .error (.outOfBounds access addr w.bytes)) ∧
    (addr.toNat + w.bytes ≤ s.cfg.memSize →
      (∃ x, memRead access addr w s = .ok x ∧ ∀ k < 32, x.getLsbD k =
        if k < 8 * w.bytes then (readByte s.mem (addr.toNat + k / 8)).getLsbD (k % 8) else false) ∧
      (∃ t, memWrite access addr w v s = .ok t ∧ MemoryWritten s t addr w.bytes v ∧
        RegistersKept s t ∧ t.pc = s.pc ∧ TableKept s t))

/-- A read sees the last write: reading back what was just written at the same address and width gives its
low bytes, and reading a span the write does not touch gives what it gave before (R51, R64; the sequential
order is the spec's decision D14). -/
def Obligations.ReadSeesTheLastWrite : Prop :=
  ∀ (s t : State) (acc acc' : Access) (addr addr' v : Word) (w w' : Width),
    memWrite acc addr w v s = .ok t →
    memRead acc' addr w t = .ok (BitVec.ofNat 32 (v.toNat % 2 ^ (8 * w.bytes))) ∧
    (addr'.toNat + w'.bytes ≤ addr.toNat ∨ addr.toNat + w.bytes ≤ addr'.toNat →
      memRead acc' addr' w' t = memRead acc' addr' w' s)

/-- A word stored over the next instruction is the word fetched next: no fence or delay is needed (R67, R276,
derived by the spec). -/
def Obligations.StoreToTheNextInstructionIsFetched : Prop :=
  ∀ (s t : State) (rs2 rs1 : Reg) (imm : BitVec 12),
    s.pc.toNat % 4 = 0 → effectiveAddress rs1 imm s = s.pc + 4 → exec (.sw rs2 rs1 imm) s = .next t →
    fetch t = .ok (readX rs2 s)

/-! ## Reset, power-on and the host's ports -/

/-- `Reset()` writes `POISON`, whatever it is, to `x1` to `x31` and the pc, and leaves `x0` at 0, memory and
the breakpoint table (R270). -/
def Obligations.ResetWritesPoison : Prop :=
  ∀ s : State, s.cfg.Legal →
    hostCall .reset s = (resetRegisters s, .done) ∧ s.cfg.poison ≠ 0 ∧
    (∀ r : Reg, readX r (resetRegisters s) = if r = 0 then 0 else s.cfg.poison) ∧
    (resetRegisters s).pc = s.cfg.poison ∧ MemoryKept s (resetRegisters s) ∧
    TableKept s (resetRegisters s)

/-- A newly created machine has all memory zero, its registers as after `Reset()` and no breakpoint set (R271;
registers D13, table D12, log entries 1 and 10). -/
def Obligations.PowerOnState : Prop :=
  ∀ c : Config,
    (∀ a, readByte (State.powerOn c).mem a = 0) ∧
    (∀ r : Reg, readX r (State.powerOn c) = readX r (resetRegisters (State.powerOn c))) ∧
    (State.powerOn c).pc = c.poison ∧
    (∀ addr, getBreakpoint addr (State.powerOn c) = false)

/-- `GetRegister` by index after `SetRegister`: the entry written if it is one of 1 to 32, `x0` always 0,
nothing outside `0..32`; memory, table and parameters stay (R34, R35; ranges D16, log entry 11). -/
def Obligations.RegisterPortsReadBack : Prop :=
  ∀ (s : State) (i j : Nat) (v : Word),
    (getRegister (.index j) (setRegister i v s) =
      if 32 < j then none else if j = 0 then some 0 else if j = i then some v
      else getRegister (.index j) s) ∧
    MemoryKept s (setRegister i v s) ∧ TableKept s (setRegister i v s)

/-- The two names R23's table gives each index resolve to it and no other string is a name; `GetRegister` by
name reads the entry of the index (R23, R24; the matching rule is D16, log entry 11). -/
def Obligations.RegisterNamesResolve : Prop :=
  let table : List (Nat × String × String) :=
    [(0, "x0", "zero"), (1, "x1", "ra"), (2, "x2", "sp"), (3, "x3", "gp"), (4, "x4", "tp")] ++
    [(5, "x5", "t0"), (6, "x6", "t1"), (7, "x7", "t2"), (8, "x8", "s0"), (9, "x9", "s1")] ++
    [(10, "x10", "a0"), (11, "x11", "a1"), (12, "x12", "a2"), (13, "x13", "a3"), (14, "x14", "a4")] ++
    [(15, "x15", "a5"), (16, "x16", "a6"), (17, "x17", "a7"), (18, "x18", "s2"), (19, "x19", "s3")] ++
    [(20, "x20", "s4"), (21, "x21", "s5"), (22, "x22", "s6"), (23, "x23", "s7"), (24, "x24", "s8")] ++
    [(25, "x25", "s9"), (26, "x26", "s10"), (27, "x27", "s11"), (28, "x28", "t3"), (29, "x29", "t4")] ++
    [(30, "x30", "t5"), (31, "x31", "t6"), (32, "pc", "pc")]
  (∀ p ∈ table, registerIndex p.2.1 = some p.1 ∧ registerIndex p.2.2 = some p.1) ∧
  (∀ n : String, (∀ p ∈ table, n ≠ p.2.1 ∧ n ≠ p.2.2) → registerIndex n = none) ∧
  (∀ (n : String) (i : Nat) (s : State), registerIndex n = some i →
    i < 33 ∧ getRegister (.name n) s = getRegister (.index i) s) ∧
  (∀ (n : String) (s : State), registerIndex n = none → getRegister (.name n) s = none)

/-- `GetBreakpoint` after `SetBreakpoint`: the four byte addresses of a word share an entry, an address beyond
memory reads false and writes nothing, and registers and memory stay (R30, R36; D12, log entry 10). -/
def Obligations.BreakpointPortsReadBack : Prop :=
  ∀ (s : State) (a b : Word) (set : Bool),
    getBreakpoint b (setBreakpoint a set s) =
      (if a.toNat < s.cfg.memSize ∧ b.toNat < s.cfg.memSize ∧ a.toNat / 4 = b.toNat / 4 then set
       else getBreakpoint b s) ∧
    (s.cfg.memSize ≤ b.toNat → getBreakpoint b s = false) ∧
    (s.cfg.memSize ≤ a.toNat → setBreakpoint a set s = s) ∧
    RegistersKept s (setBreakpoint a set s) ∧ (setBreakpoint a set s).pc = s.pc ∧
    MemoryKept s (setBreakpoint a set s) ∧ (setBreakpoint a set s).cfg = s.cfg

/-- The memory ports need no alignment, answer a fault and change nothing out of bounds, and touch no register
and no breakpoint (R69; alignment D15, log entry 12). That the fault value is `outOfBounds` with the access
`hostRead` or `hostWrite` is the model's own, a DESIGN CHOICE of log entry 12: R69 says a fault value only. -/
def Obligations.MemoryPorts : Prop :=
  ∀ (s : State) (w : Width) (addr v : Word),
    (s.cfg.memSize < addr.toNat + w.bytes →
      hostCall (.readMemory w addr) s = (s, .fault (.outOfBounds .hostRead addr w.bytes)) ∧
      hostCall (.writeMemory w addr v) s = (s, .fault (.outOfBounds .hostWrite addr w.bytes))) ∧
    (addr.toNat + w.bytes ≤ s.cfg.memSize →
      (∃ x, hostCall (.readMemory w addr) s = (s, .value x) ∧ memRead .hostRead addr w s = .ok x) ∧
      ∃ t, hostCall (.writeMemory w addr v) s = (t, .done) ∧ MemoryWritten s t addr w.bytes v ∧
        RegistersKept s t ∧ t.pc = s.pc ∧ TableKept s t ∧
        hostCall (.readMemory w addr) t =
          (t, .value (BitVec.ofNat 32 (v.toNat % 2 ^ (8 * w.bytes)))))

/-- Loading an image writes each of its bytes from the base up and nothing else, or refuses and writes none
(R70; the refusal is D22, log entry 13). -/
def Obligations.ImageLoadIsVerbatimOrRefused : Prop :=
  ∀ (s : State) (base : Word) (blob : List Byte),
    (s.cfg.memSize < base.toNat + blob.length → hostCall (.loadImage base blob) s = (s, .imageRefused)) ∧
    (base.toNat + blob.length ≤ s.cfg.memSize →
      ∃ t, hostCall (.loadImage base blob) s = (t, .done) ∧
        (∀ k (h : k < blob.length), readByte t.mem (base.toNat + k) = blob[k]) ∧
        (∀ a, a < base.toNat ∨ base.toNat + blob.length ≤ a → readByte t.mem a = readByte s.mem a) ∧
        RegistersKept s t ∧ t.pc = s.pc ∧ TableKept s t)

/-- The boot sequence of R273 with an aligned base that is also the entry, an image that begins with a
well-formed instruction and fits, and no register list that sets the pc again: the pc is the entry, memory
outside the image is zero, and the first step runs that instruction (R271 to R273, R70; D13, D21, log
entry 18). -/
def Obligations.BootedMachineRunsItsImage : Prop :=
  ∀ (c : Config) (base : Word) (i : Instr) (rest : List Byte) (regs : List (Nat × Word))
    (breakpoints : List Word),
    base.toNat % 4 = 0 → base.toNat + (4 + rest.length) ≤ c.memSize → (∀ p ∈ regs, p.1 ≠ 32) →
    i.wellFormed = true →
    ∃ s, boot c base (encodeBytes i ++ rest) base regs breakpoints = some s ∧ s.pc = base ∧ s.cfg = c ∧
      (∀ a, a < base.toNat ∨ base.toNat + (4 + rest.length) ≤ a → readByte s.mem a = 0) ∧
      step s = exec i s

/-! ## The toolchain -/

/-- The disassembler answers a line for exactly the words R93 decodes: it has the instruction's mnemonic, its
registers have ABI names, and assembling its fields, or any text that reads as them, gives the word, so for
the 37 executable instructions no operand is lost (R97 to R104; the upper-immediate convention is D17, that a
line is already cut into tokens is the model's own, log entry 17). -/
def Obligations.AssembleOfDisassembleIsTheWord : Prop :=
  ∀ w : Word,
    (∀ i, decodeExecutable w = .ok i → ∃ l, disassemble w = some l ∧ l.mnemonic = i.mnemonic ∧
      (∀ o ∈ l.operands, ∀ n, (o = .reg n ∨ ∃ v, o = .memory v n) → n ∈ abiNames)) ∧
    (∀ reason, decodeExecutable w = .error reason → disassemble w = none) ∧
    (∀ l, disassemble w = some l → assemble l = .word w) ∧
    (∀ l text, disassemble w = some l → readText text = some l → assembleText text = .word w)

/-- Immediate tokens read as R99 says: `0x` and 1 to 8 hexadecimal digits, or decimal digits with an optional
leading minus, within `-2^31 .. 2^32-1`; anything else, an empty token, a ninth hexadecimal digit or a
character that is no digit, reads as nothing; and a line with such a token assembles to the sentinel, whatever
its mnemonic (R99, R101; that a line is already cut into tokens is the model's own, log entry 17). -/
def Obligations.ImmediateTokensReadAsWritten : Prop :=
  let number := fun (radix : Nat) (ds : List Nat) => ds.foldl (fun acc d => acc * radix + d) 0
  let written := fun (ds : List Nat) => ds.map Nat.digitChar
  (∀ ds : List Nat, (∀ d ∈ ds, d < 16) →
    immediateToken ('0' :: 'x' :: written ds) =
      if 1 ≤ ds.length ∧ ds.length ≤ 8 then some (number 16 ds : Int) else none) ∧
  (∀ ds : List Nat, (∀ d ∈ ds, d < 10) → ds ≠ [] →
    immediateToken (written ds) = (if number 10 ds < 2 ^ 32 then some (number 10 ds : Int) else none) ∧
    immediateToken ('-' :: written ds) =
      if number 10 ds ≤ 2 ^ 31 then some (-(number 10 ds : Int)) else none) ∧
  (∀ (before after : List Char) (c : Char), c.isDigit = false →
    (before ≠ [] ∨ c ≠ '-') → (before ≠ ['0'] ∨ c ≠ 'x') → before.take 2 ≠ ['0', 'x'] →
    immediateToken (before ++ c :: after) = none) ∧
  (∀ (before after : List Char) (c : Char), c.isDigit = false → c ∉ "abcdefABCDEF".toList →
    immediateToken ('0' :: 'x' :: before ++ c :: after) = none) ∧
  immediateToken [] = none ∧ immediateToken ['-'] = none ∧
  (∀ (text : AsmText) (o : AsmToken) (token : String), o ∈ text.operands →
    (o = .imm token ∨ ∃ base, o = .memory token base) → immediateToken token.toList = none →
    assembleText text = .word 0)

/-- The assembler makes the `ecall` and `ebreak` words, the disassembler rejects them, and no line's failure
sentinel is an instruction (R101, R102, R104; C5, log entry 17; the numbers G5, log entry 4). -/
def Obligations.AssemblerOnlyMnemonicsAreNotDisassembled : Prop :=
  assemble ⟨"ecall", []⟩ = .word 0x00000073 ∧ assemble ⟨"ebreak", []⟩ = .word 0x00100073 ∧
  disassemble 0x00000073 = none ∧ disassemble 0x00100073 = none ∧
  (∀ (l : AsmLine), shapeOf l.mnemonic asmGrammar = none → assemble l = .word 0) ∧
  decode 0 = .error .lengthBits
end

