-- ==== Sys2Proof/Laws/Decode.lean ====
section
/-! SUPPORT. What each field of an encoded word reads back (R82 to R90 against R84), format by format. -/

namespace Sys2Proof

/-- The low two bits and the major class are parts of the opcode field (R82, R83). -/
theorem lowBits_eq (w : Word) : w.extractLsb' 0 2 = (fieldOpcode w).extractLsb' 0 2 := by
  refine BitVec.eq_of_getLsbD_eq fun i hi => ?_
  simp only [fieldOpcode, BitVec.getLsbD_extractLsb']
  interval_cases i <;> simp

theorem fieldMajor_eq (w : Word) : fieldMajor w = (fieldOpcode w).extractLsb' 2 5 := by
  refine BitVec.eq_of_getLsbD_eq fun i hi => ?_
  simp only [fieldMajor, fieldOpcode, BitVec.getLsbD_extractLsb']
  interval_cases i <;> simp

theorem reg_of_bits {w : BitVec 5} {r : Reg} (h : w = regBits r) : w.toFin = r := by subst h; rfl

theorem evenOffset_bit_zero {n : Nat} {off : BitVec n} (h : evenOffset off = true) :
    off.getLsbD 0 = false := by
  simpa [evenOffset] using h

/-! ## R format -/

theorem fieldOpcode_encodeR (funct7 rs2 rs1 funct3 rd opcode) :
    fieldOpcode (encodeR funct7 rs2 rs1 funct3 rd opcode) = opcode := by
  refine BitVec.eq_of_getLsbD_eq fun i hi => ?_
  simp only [fieldOpcode, encodeR, BitVec.getLsbD_extractLsb', BitVec.getLsbD_append]
  interval_cases i <;> simp

theorem fieldRd_encodeR (funct7 rs2 rs1 funct3 rd opcode) :
    fieldRd (encodeR funct7 rs2 rs1 funct3 rd opcode) = rd := by
  refine reg_of_bits (BitVec.eq_of_getLsbD_eq fun i hi => ?_)
  simp only [encodeR, BitVec.getLsbD_extractLsb', BitVec.getLsbD_append]
  interval_cases i <;> simp

theorem fieldFunct3_encodeR (funct7 rs2 rs1 funct3 rd opcode) :
    fieldFunct3 (encodeR funct7 rs2 rs1 funct3 rd opcode) = funct3 := by
  refine BitVec.eq_of_getLsbD_eq fun i hi => ?_
  simp only [fieldFunct3, encodeR, BitVec.getLsbD_extractLsb', BitVec.getLsbD_append]
  interval_cases i <;> simp

theorem fieldRs1_encodeR (funct7 rs2 rs1 funct3 rd opcode) :
    fieldRs1 (encodeR funct7 rs2 rs1 funct3 rd opcode) = rs1 := by
  refine reg_of_bits (BitVec.eq_of_getLsbD_eq fun i hi => ?_)
  simp only [encodeR, BitVec.getLsbD_extractLsb', BitVec.getLsbD_append]
  interval_cases i <;> simp

theorem fieldRs2_encodeR (funct7 rs2 rs1 funct3 rd opcode) :
    fieldRs2 (encodeR funct7 rs2 rs1 funct3 rd opcode) = rs2 := by
  refine reg_of_bits (BitVec.eq_of_getLsbD_eq fun i hi => ?_)
  simp only [encodeR, BitVec.getLsbD_extractLsb', BitVec.getLsbD_append]
  interval_cases i <;> simp

theorem fieldFunct7_encodeR (funct7 rs2 rs1 funct3 rd opcode) :
    fieldFunct7 (encodeR funct7 rs2 rs1 funct3 rd opcode) = funct7 := by
  refine BitVec.eq_of_getLsbD_eq fun i hi => ?_
  simp only [fieldFunct7, encodeR, BitVec.getLsbD_extractLsb', BitVec.getLsbD_append]
  interval_cases i <;> simp

/-! ## I format -/

theorem fieldOpcode_encodeI (imm rs1 funct3 rd opcode) :
    fieldOpcode (encodeI imm rs1 funct3 rd opcode) = opcode := by
  refine BitVec.eq_of_getLsbD_eq fun i hi => ?_
  simp only [fieldOpcode, encodeI, BitVec.getLsbD_extractLsb', BitVec.getLsbD_append]
  interval_cases i <;> simp

theorem fieldRd_encodeI (imm rs1 funct3 rd opcode) :
    fieldRd (encodeI imm rs1 funct3 rd opcode) = rd := by
  refine reg_of_bits (BitVec.eq_of_getLsbD_eq fun i hi => ?_)
  simp only [encodeI, BitVec.getLsbD_extractLsb', BitVec.getLsbD_append]
  interval_cases i <;> simp

theorem fieldFunct3_encodeI (imm rs1 funct3 rd opcode) :
    fieldFunct3 (encodeI imm rs1 funct3 rd opcode) = funct3 := by
  refine BitVec.eq_of_getLsbD_eq fun i hi => ?_
  simp only [fieldFunct3, encodeI, BitVec.getLsbD_extractLsb', BitVec.getLsbD_append]
  interval_cases i <;> simp

theorem fieldRs1_encodeI (imm rs1 funct3 rd opcode) :
    fieldRs1 (encodeI imm rs1 funct3 rd opcode) = rs1 := by
  refine reg_of_bits (BitVec.eq_of_getLsbD_eq fun i hi => ?_)
  simp only [encodeI, BitVec.getLsbD_extractLsb', BitVec.getLsbD_append]
  interval_cases i <;> simp

theorem fieldImmI_encodeI (imm rs1 funct3 rd opcode) :
    fieldImmI (encodeI imm rs1 funct3 rd opcode) = imm := by
  refine BitVec.eq_of_getLsbD_eq fun i hi => ?_
  simp only [fieldImmI, encodeI, BitVec.getLsbD_extractLsb', BitVec.getLsbD_append]
  interval_cases i <;> simp

/-! ## I-shift format -/

theorem fieldOpcode_encodeShift (funct7 shamt rs1 funct3 rd opcode) :
    fieldOpcode (encodeShift funct7 shamt rs1 funct3 rd opcode) = opcode := by
  refine BitVec.eq_of_getLsbD_eq fun i hi => ?_
  simp only [fieldOpcode, encodeShift, BitVec.getLsbD_extractLsb', BitVec.getLsbD_append]
  interval_cases i <;> simp

theorem fieldRd_encodeShift (funct7 shamt rs1 funct3 rd opcode) :
    fieldRd (encodeShift funct7 shamt rs1 funct3 rd opcode) = rd := by
  refine reg_of_bits (BitVec.eq_of_getLsbD_eq fun i hi => ?_)
  simp only [encodeShift, BitVec.getLsbD_extractLsb', BitVec.getLsbD_append]
  interval_cases i <;> simp

theorem fieldFunct3_encodeShift (funct7 shamt rs1 funct3 rd opcode) :
    fieldFunct3 (encodeShift funct7 shamt rs1 funct3 rd opcode) = funct3 := by
  refine BitVec.eq_of_getLsbD_eq fun i hi => ?_
  simp only [fieldFunct3, encodeShift, BitVec.getLsbD_extractLsb', BitVec.getLsbD_append]
  interval_cases i <;> simp

theorem fieldRs1_encodeShift (funct7 shamt rs1 funct3 rd opcode) :
    fieldRs1 (encodeShift funct7 shamt rs1 funct3 rd opcode) = rs1 := by
  refine reg_of_bits (BitVec.eq_of_getLsbD_eq fun i hi => ?_)
  simp only [encodeShift, BitVec.getLsbD_extractLsb', BitVec.getLsbD_append]
  interval_cases i <;> simp

theorem fieldShamt_encodeShift (funct7 shamt rs1 funct3 rd opcode) :
    fieldShamt (encodeShift funct7 shamt rs1 funct3 rd opcode) = shamt := by
  refine BitVec.eq_of_getLsbD_eq fun i hi => ?_
  simp only [fieldShamt, encodeShift, BitVec.getLsbD_extractLsb', BitVec.getLsbD_append]
  interval_cases i <;> simp

theorem fieldFunct7_encodeShift (funct7 shamt rs1 funct3 rd opcode) :
    fieldFunct7 (encodeShift funct7 shamt rs1 funct3 rd opcode) = funct7 := by
  refine BitVec.eq_of_getLsbD_eq fun i hi => ?_
  simp only [fieldFunct7, encodeShift, BitVec.getLsbD_extractLsb', BitVec.getLsbD_append]
  interval_cases i <;> simp

/-! ## S format -/

theorem fieldOpcode_encodeS (imm rs2 rs1 funct3 opcode) :
    fieldOpcode (encodeS imm rs2 rs1 funct3 opcode) = opcode := by
  refine BitVec.eq_of_getLsbD_eq fun i hi => ?_
  simp only [fieldOpcode, encodeS, BitVec.getLsbD_extractLsb', BitVec.getLsbD_append]
  interval_cases i <;> simp

theorem fieldFunct3_encodeS (imm rs2 rs1 funct3 opcode) :
    fieldFunct3 (encodeS imm rs2 rs1 funct3 opcode) = funct3 := by
  refine BitVec.eq_of_getLsbD_eq fun i hi => ?_
  simp only [fieldFunct3, encodeS, BitVec.getLsbD_extractLsb', BitVec.getLsbD_append]
  interval_cases i <;> simp

theorem fieldRs1_encodeS (imm rs2 rs1 funct3 opcode) :
    fieldRs1 (encodeS imm rs2 rs1 funct3 opcode) = rs1 := by
  refine reg_of_bits (BitVec.eq_of_getLsbD_eq fun i hi => ?_)
  simp only [encodeS, BitVec.getLsbD_extractLsb', BitVec.getLsbD_append]
  interval_cases i <;> simp

theorem fieldRs2_encodeS (imm rs2 rs1 funct3 opcode) :
    fieldRs2 (encodeS imm rs2 rs1 funct3 opcode) = rs2 := by
  refine reg_of_bits (BitVec.eq_of_getLsbD_eq fun i hi => ?_)
  simp only [encodeS, BitVec.getLsbD_extractLsb', BitVec.getLsbD_append]
  interval_cases i <;> simp

theorem fieldImmS_encodeS (imm rs2 rs1 funct3 opcode) :
    fieldImmS (encodeS imm rs2 rs1 funct3 opcode) = imm := by
  refine BitVec.eq_of_getLsbD_eq fun i hi => ?_
  simp only [fieldImmS, encodeS, BitVec.getLsbD_extractLsb', BitVec.getLsbD_append]
  interval_cases i <;> simp

/-! ## B format -/

theorem fieldOpcode_encodeB (off rs2 rs1 funct3 opcode) :
    fieldOpcode (encodeB off rs2 rs1 funct3 opcode) = opcode := by
  refine BitVec.eq_of_getLsbD_eq fun i hi => ?_
  simp only [fieldOpcode, encodeB, BitVec.getLsbD_extractLsb', BitVec.getLsbD_append]
  interval_cases i <;> simp

theorem fieldFunct3_encodeB (off rs2 rs1 funct3 opcode) :
    fieldFunct3 (encodeB off rs2 rs1 funct3 opcode) = funct3 := by
  refine BitVec.eq_of_getLsbD_eq fun i hi => ?_
  simp only [fieldFunct3, encodeB, BitVec.getLsbD_extractLsb', BitVec.getLsbD_append]
  interval_cases i <;> simp

theorem fieldRs1_encodeB (off rs2 rs1 funct3 opcode) :
    fieldRs1 (encodeB off rs2 rs1 funct3 opcode) = rs1 := by
  refine reg_of_bits (BitVec.eq_of_getLsbD_eq fun i hi => ?_)
  simp only [encodeB, BitVec.getLsbD_extractLsb', BitVec.getLsbD_append]
  interval_cases i <;> simp

theorem fieldRs2_encodeB (off rs2 rs1 funct3 opcode) :
    fieldRs2 (encodeB off rs2 rs1 funct3 opcode) = rs2 := by
  refine reg_of_bits (BitVec.eq_of_getLsbD_eq fun i hi => ?_)
  simp only [encodeB, BitVec.getLsbD_extractLsb', BitVec.getLsbD_append]
  interval_cases i <;> simp

theorem fieldImmB_encodeB (off rs2 rs1 funct3 opcode) (h : evenOffset off = true) :
    fieldImmB (encodeB off rs2 rs1 funct3 opcode) = off := by
  refine BitVec.eq_of_getLsbD_eq fun i hi => ?_
  have h0 := evenOffset_bit_zero h
  simp only [fieldImmB, encodeB, BitVec.getLsbD_extractLsb', BitVec.getLsbD_append]
  interval_cases i <;> simp_all

/-! ## U format -/

theorem fieldOpcode_encodeU (imm rd opcode) :
    fieldOpcode (encodeU imm rd opcode) = opcode := by
  refine BitVec.eq_of_getLsbD_eq fun i hi => ?_
  simp only [fieldOpcode, encodeU, BitVec.getLsbD_extractLsb', BitVec.getLsbD_append]
  interval_cases i <;> simp

theorem fieldRd_encodeU (imm rd opcode) :
    fieldRd (encodeU imm rd opcode) = rd := by
  refine reg_of_bits (BitVec.eq_of_getLsbD_eq fun i hi => ?_)
  simp only [encodeU, BitVec.getLsbD_extractLsb', BitVec.getLsbD_append]
  interval_cases i <;> simp

theorem fieldImmU_encodeU (imm rd opcode) :
    fieldImmU (encodeU imm rd opcode) = imm := by
  refine BitVec.eq_of_getLsbD_eq fun i hi => ?_
  simp only [fieldImmU, encodeU, BitVec.getLsbD_extractLsb', BitVec.getLsbD_append]
  interval_cases i <;> simp

/-! ## J format -/

theorem fieldOpcode_encodeJ (off rd opcode) :
    fieldOpcode (encodeJ off rd opcode) = opcode := by
  refine BitVec.eq_of_getLsbD_eq fun i hi => ?_
  simp only [fieldOpcode, encodeJ, BitVec.getLsbD_extractLsb', BitVec.getLsbD_append]
  interval_cases i <;> simp

theorem fieldRd_encodeJ (off rd opcode) :
    fieldRd (encodeJ off rd opcode) = rd := by
  refine reg_of_bits (BitVec.eq_of_getLsbD_eq fun i hi => ?_)
  simp only [encodeJ, BitVec.getLsbD_extractLsb', BitVec.getLsbD_append]
  interval_cases i <;> simp

theorem fieldImmJ_encodeJ (off rd opcode) (h : evenOffset off = true) :
    fieldImmJ (encodeJ off rd opcode) = off := by
  refine BitVec.eq_of_getLsbD_eq fun i hi => ?_
  have h0 := evenOffset_bit_zero h
  simp only [fieldImmJ, encodeJ, BitVec.getLsbD_extractLsb', BitVec.getLsbD_append]
  interval_cases i <;> simp_all

/-! ## The rows that never execute -/

theorem fieldOpcode_encodeRefused (fields opcode) :
    fieldOpcode (encodeRefused fields opcode) = opcode := by
  refine BitVec.eq_of_getLsbD_eq fun i hi => ?_
  simp only [fieldOpcode, encodeRefused, BitVec.getLsbD_extractLsb', BitVec.getLsbD_append]
  interval_cases i <;> simp

theorem fieldAboveOpcode_encodeRefused (fields opcode) :
    fieldAboveOpcode (encodeRefused fields opcode) = fields := by
  refine BitVec.eq_of_getLsbD_eq fun i hi => ?_
  simp only [fieldAboveOpcode, encodeRefused, BitVec.getLsbD_extractLsb', BitVec.getLsbD_append]
  interval_cases i <;> simp

end Sys2Proof
end

