-- ==== Sys2Proof/Laws/State.lean ====
section
/-! SUPPORT. What each named update of the state leaves in each field, and what a register reads after it. -/

namespace Sys2Proof.Machine

/-! ## writeX -/

@[simp] theorem writeX_pc (r : Reg) (v : Word) (s : State) : (writeX r v s).pc = s.pc := by
  unfold writeX; split <;> rfl

@[simp] theorem writeX_mem (r : Reg) (v : Word) (s : State) : (writeX r v s).mem = s.mem := by
  unfold writeX; split <;> rfl

@[simp] theorem writeX_bkpts (r : Reg) (v : Word) (s : State) : (writeX r v s).bkpts = s.bkpts := by
  unfold writeX; split <;> rfl

@[simp] theorem writeX_cfg (r : Reg) (v : Word) (s : State) : (writeX r v s).cfg = s.cfg := by
  unfold writeX; split <;> rfl

theorem writeX_zero (v : Word) (s : State) : writeX 0 v s = s := rfl

@[simp] theorem readX_zero (s : State) : readX 0 s = 0 := rfl

/-- A register reads what its storage holds: two states with the same `x` read alike. -/
theorem readX_congr {s t : State} (h : t.x = s.x) (r : Reg) : readX r t = readX r s := by
  unfold readX; split
  · rfl
  · simp [h]

/-- Read after write: the written register reads the value unless it is `x0`, every other reads as before. -/
theorem readX_writeX (r q : Reg) (v : Word) (s : State) :
    readX q (writeX r v s) = if q = 0 then 0 else if q = r then v else readX q s := by
  by_cases hq : q = 0
  · subst hq; rfl
  · have hq' : q.val ≠ 0 := fun h => hq (Fin.ext h)
    by_cases hr : r.val = 0
    · have : q ≠ r := by rintro rfl; exact hq' hr
      simp [writeX, hr, hq, this]
    · by_cases hqr : q = r
      · subst hqr; simp [readX, writeX, hq', hq]
      · have hne : ¬ r.val - 1 = q.val - 1 := by
          intro h; exact hqr (Fin.ext (by omega))
        simp [readX, writeX, hr, hq, hq', hqr, hne]

/-! ## The raw field updates the operations make -/

@[simp] theorem readX_with_pc (r : Reg) (s : State) (p : Word) : readX r { s with pc := p } = readX r s := rfl

@[simp] theorem readX_with_mem (r : Reg) (s : State) (m : Memory) :
    readX r { s with mem := m } = readX r s := rfl

@[simp] theorem readX_with_bkpts (r : Reg) (s : State) (l : List Nat) :
    readX r { s with bkpts := l } = readX r s := rfl

/-! ## commit -/

@[simp] theorem commit_pc (e : Effect) (s : State) : (commit e s).pc = nextPc e s.pc := rfl

@[simp] theorem commit_mem (e : Effect) (s : State) : (commit e s).mem = commitMem e s.mem := rfl

@[simp] theorem commit_bkpts (e : Effect) (s : State) : (commit e s).bkpts = s.bkpts := by
  show (commitReg e s).bkpts = s.bkpts
  unfold commitReg; split <;> simp

@[simp] theorem commit_cfg (e : Effect) (s : State) : (commit e s).cfg = s.cfg := by
  show (commitReg e s).cfg = s.cfg
  unfold commitReg; split <;> simp

theorem readX_commit (e : Effect) (s : State) (q : Reg) : readX q (commit e s) = readX q (commitReg e s) :=
  readX_congr rfl q

/-! ## Reset and power-on -/

@[simp] theorem resetRegisters_mem (s : State) : (resetRegisters s).mem = s.mem := rfl
@[simp] theorem resetRegisters_bkpts (s : State) : (resetRegisters s).bkpts = s.bkpts := rfl
@[simp] theorem resetRegisters_cfg (s : State) : (resetRegisters s).cfg = s.cfg := rfl
@[simp] theorem resetRegisters_pc (s : State) : (resetRegisters s).pc = s.cfg.poison := rfl

/-- A register file filled with one value reads it everywhere but in `x0`. -/
theorem readX_of_replicate {s : State} {v : Word} (h : s.x = Vector.replicate 31 v) (r : Reg) :
    readX r s = if r = 0 then 0 else v := by
  by_cases hr : r = 0
  · subst hr; rfl
  · have hr' : r.val ≠ 0 := fun h => hr (Fin.ext h)
    simp [readX, hr, hr', h]

@[simp] theorem powerOn_pc (c : Config) : (State.powerOn c).pc = c.poison := rfl
@[simp] theorem powerOn_mem (c : Config) : (State.powerOn c).mem = [] := rfl
@[simp] theorem powerOn_bkpts (c : Config) : (State.powerOn c).bkpts = [] := rfl
@[simp] theorem powerOn_cfg (c : Config) : (State.powerOn c).cfg = c := rfl

/-! ## setRegister and setBreakpoint -/

@[simp] theorem setRegister_mem (i : Nat) (v : Word) (s : State) : (setRegister i v s).mem = s.mem := by
  unfold setRegister; split
  · simp
  · split <;> rfl

@[simp] theorem setRegister_bkpts (i : Nat) (v : Word) (s : State) :
    (setRegister i v s).bkpts = s.bkpts := by
  unfold setRegister; split
  · simp
  · split <;> rfl

@[simp] theorem setRegister_cfg (i : Nat) (v : Word) (s : State) : (setRegister i v s).cfg = s.cfg := by
  unfold setRegister; split
  · simp
  · split <;> rfl

@[simp] theorem setBreakpoint_x (a : Word) (b : Bool) (s : State) : (setBreakpoint a b s).x = s.x := by
  unfold setBreakpoint; split <;> rfl

@[simp] theorem setBreakpoint_pc (a : Word) (b : Bool) (s : State) : (setBreakpoint a b s).pc = s.pc := by
  unfold setBreakpoint; split <;> rfl

@[simp] theorem setBreakpoint_mem (a : Word) (b : Bool) (s : State) : (setBreakpoint a b s).mem = s.mem := by
  unfold setBreakpoint; split <;> rfl

@[simp] theorem setBreakpoint_cfg (a : Word) (b : Bool) (s : State) : (setBreakpoint a b s).cfg = s.cfg := by
  unfold setBreakpoint; split <;> rfl

end Sys2Proof.Machine
end

