-- ==== Sys2Proof/Laws/Memory.lean ====
section
/-! SUPPORT. Memory: read after write, what a write leaves alone, and that every operation keeps the
canonical form and the capacity. -/

namespace Sys2Proof.Machine

/-! ## Read after write -/

theorem readByte_eraseByte (m : Memory) (a k : Nat) :
    readByte (eraseByte m a) k = if k = a then unlistedByte else readByte m k := by
  induction m with
  | nil => simp [eraseByte, readByte]
  | cons p rest ih =>
    obtain ⟨j, c⟩ := p
    unfold eraseByte at ih ⊢
    by_cases hj : j = a
    · subst hj
      by_cases hk : k = j
      · subst hk; simpa using ih
      · have : ¬ j = k := fun h => hk h.symm
        simpa [readByte, hk, this] using ih
    · by_cases hk : j = k
      · subst hk; simp [readByte, hj]
      · simp [readByte, hj, hk, ih]

theorem readByte_insertByte (m : Memory) (a k : Nat) (b : Byte) (h : ∀ p ∈ m, p.1 ≠ a) :
    readByte (insertByte m a b) k = if k = a then b else readByte m k := by
  induction m with
  | nil => simp [insertByte, readByte, eq_comm (a := a)]
  | cons p rest ih =>
    obtain ⟨j, c⟩ := p
    have hj : j ≠ a := h (j, c) (by simp)
    unfold insertByte
    split
    · simp [readByte, eq_comm (a := a)]
    · have ih' := ih fun p hp => h p (by simp [hp])
      by_cases hk : j = k
      · subst hk; simp [readByte, hj]
      · simp [readByte, hk, ih']

theorem ne_of_mem_eraseByte {m : Memory} {a : Nat} : ∀ p ∈ eraseByte m a, p.1 ≠ a := by
  simp [eraseByte]

/-- Reading any byte after a write of one byte. It holds of every list, canonical or not. -/
theorem readByte_writeByte (m : Memory) (a k : Nat) (b : Byte) :
    readByte (writeByte m a b) k = if k = a then b else readByte m k := by
  unfold writeByte
  split
  · rename_i h; rw [readByte_eraseByte, h]
  · rw [readByte_insertByte _ _ _ _ ne_of_mem_eraseByte, readByte_eraseByte]
    by_cases hk : k = a <;> simp [hk]

/-- Reading any byte after a write of consecutive bytes. -/
theorem readByte_writeBytes (bs : List Byte) (m : Memory) (a k : Nat) :
    readByte (writeBytes m a bs) k = if a ≤ k then (bs[k - a]?).getD (readByte m k) else readByte m k := by
  induction bs generalizing m a with
  | nil => simp [writeBytes]
  | cons b bs ih =>
    rw [writeBytes, ih, readByte_writeByte]
    by_cases h1 : a + 1 ≤ k
    · have hka : ¬ k = a := by omega
      have h3 : k - a = (k - (a + 1)) + 1 := by omega
      simp [h1, hka, show a ≤ k by omega, h3]
    · by_cases h2 : k = a
      · subst h2; simp
      · simp [h1, h2, show ¬ a ≤ k by omega]

@[simp] theorem length_bytesOfWord (n : Nat) (v : Word) : (bytesOfWord n v).length = n := by
  induction n generalizing v with
  | zero => rfl
  | succ n ih => simp [bytesOfWord, ih]

theorem getElem?_bytesOfWord (n : Nat) (v : Word) (j : Nat) :
    (bytesOfWord n v)[j]? = if j < n then some ((v >>> (8 * j)).setWidth 8) else none := by
  induction n generalizing v j with
  | zero => simp [bytesOfWord]
  | succ n ih =>
    cases j with
    | zero => simp [bytesOfWord]
    | succ j =>
      rw [bytesOfWord, List.getElem?_cons_succ, ih, ← BitVec.shiftRight_add, show 8 * (j + 1) = 8 + 8 * j by omega]
      simp

/-- Reading any byte after `MemWrite(addr, n, v)` (R54). -/
theorem readByte_storeBytes (addr : Word) (w : Width) (v : Word) (m : Memory) (k : Nat) :
    readByte (storeBytes addr w v m) k =
      if addr.toNat ≤ k ∧ k < addr.toNat + w.bytes then (v >>> (8 * (k - addr.toNat))).setWidth 8
      else readByte m k := by
  rw [storeBytes, readByte_writeBytes, getElem?_bytesOfWord]
  by_cases h1 : addr.toNat ≤ k
  · by_cases h2 : k - addr.toNat < w.bytes
    · simp [h1, h2, show k < addr.toNat + w.bytes by omega]
    · simp [h1, h2, show ¬ k < addr.toNat + w.bytes by omega]
  · simp [h1]

/-! ## The canonical form -/

theorem Memory.wf_nil : Memory.wf [] := ⟨List.Pairwise.nil, by simp⟩

theorem Memory.wf_eraseByte {m : Memory} (h : m.wf) (a : Nat) : (eraseByte m a).wf :=
  ⟨h.1.filter _, fun p hp => h.2 p (List.mem_of_mem_filter hp)⟩

theorem mem_insertByte {m : Memory} {a : Nat} {b : Byte} {p : Host.Cell} :
    p ∈ insertByte m a b ↔ p = (a, b) ∨ p ∈ m := by
  induction m with
  | nil => simp [insertByte]
  | cons q rest ih =>
    unfold insertByte
    split
    · simp
    · simp [ih]; tauto

theorem Memory.wf_insertByte {m : Memory} (h : m.wf) {a : Nat} {b : Byte} (hb : b ≠ unlistedByte)
    (ha : ∀ p ∈ m, p.1 ≠ a) : (insertByte m a b).wf := by
  refine ⟨?_, fun p hp => ?_⟩
  · obtain ⟨hs, -⟩ := h
    induction m with
    | nil => simp [insertByte]
    | cons q rest ih =>
      obtain ⟨k, c⟩ := q
      rw [List.pairwise_cons] at hs
      unfold insertByte
      split
      · rename_i hak
        refine List.pairwise_cons.2 ⟨fun p hp => ?_, List.pairwise_cons.2 hs⟩
        rcases List.mem_cons.1 hp with rfl | hp
        · exact hak
        · exact Nat.lt_trans hak (hs.1 p hp)
      · rename_i hak
        have hne := ha (k, c) (by simp)
        refine List.pairwise_cons.2 ⟨fun p hp => ?_, ih (fun p hp => ha p (by simp [hp])) hs.2⟩
        rcases mem_insertByte.1 hp with rfl | hp
        · show k < a; simp only at hne; omega
        · exact hs.1 p hp
  · rcases mem_insertByte.1 hp with rfl | hp
    · exact hb
    · exact h.2 p hp

theorem Memory.wf_writeByte {m : Memory} (h : m.wf) (a : Nat) (b : Byte) : (writeByte m a b).wf := by
  unfold writeByte
  split
  · exact Memory.wf_eraseByte h a
  · exact Memory.wf_insertByte (Memory.wf_eraseByte h a) ‹_› ne_of_mem_eraseByte

theorem Memory.wf_writeBytes {m : Memory} (h : m.wf) (a : Nat) (bs : List Byte) :
    (writeBytes m a bs).wf := by
  induction bs generalizing m a with
  | nil => exact h
  | cons b bs ih => exact ih (Memory.wf_writeByte h a b) (a + 1)

theorem Memory.wf_storeBytes {m : Memory} (h : m.wf) (addr : Word) (w : Width) (v : Word) :
    (storeBytes addr w v m).wf := Memory.wf_writeBytes h _ _

/-! ## The capacity -/

theorem writeByte_below {m : Memory} {n a : Nat} (h : ∀ p ∈ m, p.1 < n) (ha : a < n) (b : Byte) :
    ∀ p ∈ writeByte m a b, p.1 < n := by
  intro p hp
  unfold writeByte at hp
  split at hp
  · exact h p (List.mem_of_mem_filter hp)
  · rcases mem_insertByte.1 hp with rfl | hp
    · exact ha
    · exact h p (List.mem_of_mem_filter hp)

theorem writeBytes_below {m : Memory} {n a : Nat} (bs : List Byte) (h : ∀ p ∈ m, p.1 < n)
    (ha : a + bs.length ≤ n) : ∀ p ∈ writeBytes m a bs, p.1 < n := by
  induction bs generalizing m a with
  | nil => exact h
  | cons b bs ih =>
    simp only [List.length_cons] at ha
    exact ih (writeByte_below h (by omega) b) (by omega)

theorem storeBytes_below {m : Memory} {n : Nat} {addr : Word} {w : Width} (v : Word)
    (h : ∀ p ∈ m, p.1 < n) (ha : addr.toNat + w.bytes ≤ n) : ∀ p ∈ storeBytes addr w v m, p.1 < n :=
  writeBytes_below _ h (by simpa using ha)

/-! ## Equal reads, equal memories -/

theorem readByte_of_lt {m : Memory} {a : Nat} (h : ∀ p ∈ m, a < p.1) : readByte m a = unlistedByte := by
  induction m with
  | nil => rfl
  | cons p rest ih =>
    have := h p (by simp)
    rw [readByte, if_neg (by omega)]
    exact ih fun q hq => h q (by simp [hq])

/-- Two memories in canonical form that read alike are the same list. -/
theorem Memory.eq_of_readByte_eq {m n : Memory} (hm : m.wf) (hn : n.wf)
    (h : ∀ a, readByte m a = readByte n a) : m = n := by
  induction m generalizing n with
  | nil =>
    cases n with
    | nil => rfl
    | cons q rest =>
      have := h q.1
      rw [readByte, readByte, if_pos rfl] at this
      exact absurd this.symm (hn.2 q (by simp))
  | cons p rest ih =>
    cases n with
    | nil =>
      have := h p.1
      rw [readByte, readByte, if_pos rfl] at this
      exact absurd this (hm.2 p (by simp))
    | cons q rest' =>
      obtain ⟨hm1, hm2⟩ := List.pairwise_cons.1 hm.1
      obtain ⟨hn1, hn2⟩ := List.pairwise_cons.1 hn.1
      have hp := hm.2 p (by simp)
      have hq := hn.2 q (by simp)
      have hpq : p.1 = q.1 := by
        rcases Nat.lt_trichotomy p.1 q.1 with hlt | heq | hlt
        · have := h p.1
          rw [readByte, if_pos rfl, readByte_of_lt (m := q :: rest') (a := p.1)] at this
          · exact absurd this hp
          · intro r hr
            rcases List.mem_cons.1 hr with rfl | hr
            · exact hlt
            · exact Nat.lt_trans hlt (hn1 r hr)
        · exact heq
        · have := h q.1
          rw [readByte_of_lt (m := p :: rest) (a := q.1), readByte, if_pos rfl] at this
          · exact absurd this.symm hq
          · intro r hr
            rcases List.mem_cons.1 hr with rfl | hr
            · exact hlt
            · exact Nat.lt_trans hlt (hm1 r hr)
      have hbyte : p.2 = q.2 := by
        have := h p.1
        rwa [readByte, readByte, if_pos rfl, if_pos hpq.symm] at this
      have hhead : p = q := Prod.ext hpq hbyte
      subst hhead
      refine congrArg (p :: ·) (ih ⟨hm2, fun r hr => hm.2 r (by simp [hr])⟩
        ⟨hn2, fun r hr => hn.2 r (by simp [hr])⟩ fun a => ?_)
      by_cases ha : p.1 = a
      · subst ha
        rw [readByte_of_lt hm1, readByte_of_lt hn1]
      · have := h a
        rwa [readByte, readByte, if_neg ha, if_neg ha] at this

/-! ## Bytes and words -/

/-- Reassembling a word from its four bytes gives it back (R55). -/
theorem wordOfBytes_bytesOfWord (v : Word) : wordOfBytes (bytesOfWord 4 v) = v := by
  apply BitVec.eq_of_getLsbD_eq
  intro i hi
  simp only [bytesOfWord, wordOfBytes]
  interval_cases i <;> simp

end Sys2Proof.Machine
end

