-- ==== Sys2Proof/Laws/Ops.lean ====
section
/-! SUPPORT. One lemma for each shared operation that says everything it can do, which proofs cite instead of
unfolding it. -/

namespace Sys2Proof.Machine

/-! ## Accesses and the fetch -/

theorem memRead_ok {access : Access} {addr : Word} {w : Width} {s : State} (h : InBounds addr w s) :
    memRead access addr w s = .ok (wordOfBytes (readBytes s.mem addr.toNat w.bytes)) := if_pos h

theorem memRead_error {access : Access} {addr : Word} {w : Width} {s : State} (h : ¬ InBounds addr w s) :
    memRead access addr w s = .error (.outOfBounds access addr w.bytes) := if_neg h

theorem memWrite_ok {access : Access} {addr v : Word} {w : Width} {s : State} (h : InBounds addr w s) :
    memWrite access addr w v s = .ok { s with mem := storeBytes addr w v s.mem } := if_pos h

theorem memWrite_error {access : Access} {addr v : Word} {w : Width} {s : State}
    (h : ¬ InBounds addr w s) :
    memWrite access addr w v s = .error (.outOfBounds access addr w.bytes) := if_neg h

/-- The three ways a fetch can end (R56, R57, R121 steps 2 and 3). -/
theorem fetch_cases (s : State) :
    (s.pc.toNat % 4 ≠ 0 ∧ fetch s = .error (.misalignedFetch s.pc)) ∨
    (s.pc.toNat % 4 = 0 ∧ ¬ InBounds s.pc .word s ∧ fetch s = .error (.outOfBounds .fetch s.pc 4)) ∨
    (s.pc.toNat % 4 = 0 ∧ InBounds s.pc .word s ∧
      fetch s = .ok (wordOfBytes (readBytes s.mem s.pc.toNat 4))) := by
  by_cases h : s.pc.toNat % 4 = 0
  · by_cases hb : InBounds s.pc .word s
    · exact .inr (.inr ⟨h, hb, by simp only [fetch, h, memRead_ok hb]; rfl⟩)
    · exact .inr (.inl ⟨h, hb, by simp only [fetch, h, memRead_error hb]; rfl⟩)
  · exact .inl ⟨h, if_pos h⟩

/-- The fetch depends on the pc, the memory and the parameters only. -/
theorem fetch_congr {s t : State} (hp : t.pc = s.pc) (hm : t.mem = s.mem) (hc : t.cfg = s.cfg) :
    fetch t = fetch s := by
  simp [fetch, memRead, InBounds, hp, hm, hc]

/-! ## What the shapes of meanings do -/

/-- `writeResult` completes, writing one register (R122, R124). -/
theorem writeResult_spec (rd : Reg) (v : Word) (s : State) :
    ∃ t, writeResult rd v s = .next t ∧ WritesRegister s t rd v (s.pc + 4) := by
  refine ⟨_, rfl, fun r => ?_, rfl, fun a => rfl, by simp, by simp⟩
  rw [readX_commit]
  exact readX_writeX rd r v s

/-- `jumpAndLink` completes, writing the link and the pc (R150, R151). -/
theorem jumpAndLink_spec (rd : Reg) (target : Word) (s : State) :
    ∃ t, jumpAndLink rd target s = .next t ∧ WritesRegister s t rd (s.pc + 4) target := by
  refine ⟨_, rfl, fun r => ?_, rfl, fun a => rfl, by simp, by simp⟩
  rw [readX_commit]
  exact readX_writeX rd r (s.pc + 4) s

/-- `branchIf` completes, moving the pc only (R152 to R157). -/
theorem branchIf_spec (taken : Bool) (target : Word) (s : State) :
    ∃ t, branchIf taken target s = .next t ∧ MovesPc s t (if taken then target else s.pc + 4) := by
  refine ⟨_, rfl, fun r => rfl, ?_, fun a => rfl, by simp, by simp⟩
  cases taken <;> rfl

/-- A load in bounds completes, writing one register. -/
theorem loadTo_spec {rd : Reg} {addr : Word} {w : Width} {extend : Word → Word} {s : State}
    (h : InBounds addr w s) :
    ∃ t, loadTo rd addr w extend s = .next t ∧
      WritesRegister s t rd (extend (wordOfBytes (readBytes s.mem addr.toNat w.bytes))) (s.pc + 4) := by
  simp only [loadTo, memRead_ok h]
  exact writeResult_spec rd _ s

/-- A load out of bounds faults, `rd = x0` or not (R170, R179). -/
theorem loadTo_fault {rd : Reg} {addr : Word} {w : Width} {extend : Word → Word} {s : State}
    (h : ¬ InBounds addr w s) :
    loadTo rd addr w extend s = .fault (.outOfBounds .load addr w.bytes) := by
  simp only [loadTo, memRead_error h]; rfl

/-- A store in bounds completes, writing its bytes and nothing else (R54). -/
theorem storeTo_spec {addr : Word} {w : Width} {v : Word} {s : State} (h : InBounds addr w s) :
    ∃ t, storeTo addr w v s = .next t ∧ StoresBytes s t addr w.bytes v := by
  refine ⟨commit { mem := some ⟨addr, w, v⟩ } s, if_pos h, fun r => rfl, rfl, fun a => ?_, by simp, by simp⟩
  exact readByte_storeBytes addr w v s.mem a

/-- A store out of bounds faults (R170, R54). -/
theorem storeTo_fault {addr : Word} {w : Width} {v : Word} {s : State} (h : ¬ InBounds addr w s) :
    storeTo addr w v s = .fault (.outOfBounds .store addr w.bytes) := if_neg h

/-! ## The four bytes of an instruction word -/

/-- A word read from the bytes just written there is the word written. -/
theorem readBytes_writeBytes (m : Memory) (a : Nat) (bs : List Byte) :
    readBytes (writeBytes m a bs) a bs.length = bs := by
  suffices h : ∀ (k n : Nat), k + n = bs.length →
      readBytes (writeBytes m a bs) (a + k) n = bs.drop k by simpa using h 0 bs.length (by simp)
  intro k n
  induction n generalizing k with
  | zero => intro h; simp [readBytes, show k = bs.length by omega]
  | succ n ih =>
    intro h
    have hk : k < bs.length := by omega
    have hn := ih (k + 1) (by omega)
    rw [readBytes, Nat.add_assoc, hn, readByte_writeBytes, List.drop_eq_getElem_cons hk]
    simp [hk]

end Sys2Proof.Machine
end

