-- ==== Sys2Proof/Laws/HostPorts.lean ====
section
/-! SUPPORT. The breakpoint table's operations and the `Step` call's equations. -/

namespace Sys2Proof.Machine

/-! ## The breakpoint table -/

theorem mem_insertEntry {l : List Nat} {j k : Nat} : j ∈ insertEntry l k ↔ j = k ∨ j ∈ l := by
  induction l with
  | nil => simp [insertEntry]
  | cons i rest ih =>
    unfold insertEntry
    split
    · simp
    · simp [ih]; tauto

theorem mem_clearEntry {l : List Nat} {j k : Nat} : j ∈ clearEntry l k ↔ j ∈ l ∧ j ≠ k := by
  simp [clearEntry]

theorem breakpointsWf_clearEntry {n : Nat} {l : List Nat} (h : BreakpointsWf n l) (k : Nat) :
    BreakpointsWf n (clearEntry l k) :=
  ⟨h.1.filter _, fun j hj => h.2 j (List.mem_of_mem_filter hj)⟩

theorem breakpointsWf_insertEntry {n : Nat} {l : List Nat} (h : BreakpointsWf n l) {k : Nat} (hk : k < n)
    (hne : k ∉ l) : BreakpointsWf n (insertEntry l k) := by
  refine ⟨?_, fun j hj => ?_⟩
  · obtain ⟨hs, -⟩ := h
    induction l with
    | nil => simp [insertEntry]
    | cons i rest ih =>
      obtain ⟨h1, h2⟩ := List.pairwise_cons.1 hs
      simp only [List.mem_cons, not_or] at hne
      unfold insertEntry
      split
      · rename_i hki
        refine List.pairwise_cons.2 ⟨fun j hj => ?_, hs⟩
        rcases List.mem_cons.1 hj with rfl | hj
        · exact hki
        · exact Nat.lt_trans hki (h1 j hj)
      · rename_i hki
        refine List.pairwise_cons.2 ⟨fun j hj => ?_, ih hne.2 h2⟩
        rcases mem_insertEntry.1 hj with rfl | hj
        · omega
        · exact h1 j hj
  · rcases mem_insertEntry.1 hj with rfl | hj
    · exact hk
    · exact h.2 j hj

/-! ## The Step call, one instruction at a time -/

theorem stepCall_zero (s : State) : stepCall 0 s = ⟨s, 0, .ok⟩ := rfl

theorem stepCall_next {s t : State} (h : step s = .next t) (n : Nat) : stepCall (n + 1) s = stepCall n t := by
  simp [stepCall, h]

theorem stepCall_fault {s : State} {f : Fault} (h : step s = .fault f) (n : Nat) :
    stepCall (n + 1) s = ⟨s, n + 1, .fault f⟩ := by
  simp [stepCall, h]

theorem stepCall_refused {s : State} {r : Refusal} (h : step s = .refused r) (n : Nat) :
    stepCall (n + 1) s = ⟨s, n + 1, .refused r⟩ := by
  simp [stepCall, h]

end Sys2Proof.Machine
end

