-- ==== Sys2Proof/Laws/PerInstr.lean ====
section
/-! SUPPORT. The statements made of every instruction, one lemma per constructor. -/

namespace Sys2Proof.Laws

/-! ## The fixed bits of each format -/

theorem maskI (imm rs1 funct3 rd opcode) :
    encodeI imm rs1 funct3 rd opcode &&& 0x0000707F#32 = BitVec.setWidth 32 (funct3 ++ 0#5 ++ opcode) := by
  refine BitVec.eq_of_getLsbD_eq fun i hi => ?_
  simp only [encodeI, BitVec.getLsbD_and, BitVec.getLsbD_setWidth, BitVec.getLsbD_append]
  interval_cases i <;> simp

theorem maskS (imm rs2 rs1 funct3 opcode) :
    encodeS imm rs2 rs1 funct3 opcode &&& 0x0000707F#32 = BitVec.setWidth 32 (funct3 ++ 0#5 ++ opcode) := by
  refine BitVec.eq_of_getLsbD_eq fun i hi => ?_
  simp only [encodeS, BitVec.getLsbD_and, BitVec.getLsbD_setWidth, BitVec.getLsbD_extractLsb', BitVec.getLsbD_append]
  interval_cases i <;> simp

theorem maskB (off rs2 rs1 funct3 opcode) :
    encodeB off rs2 rs1 funct3 opcode &&& 0x0000707F#32 = BitVec.setWidth 32 (funct3 ++ 0#5 ++ opcode) := by
  refine BitVec.eq_of_getLsbD_eq fun i hi => ?_
  simp only [encodeB, BitVec.getLsbD_and, BitVec.getLsbD_setWidth, BitVec.getLsbD_extractLsb', BitVec.getLsbD_append]
  interval_cases i <;> simp

theorem maskU (imm rd opcode) :
    encodeU imm rd opcode &&& 0x0000007F#32 = BitVec.setWidth 32 (opcode) := by
  refine BitVec.eq_of_getLsbD_eq fun i hi => ?_
  simp only [encodeU, BitVec.getLsbD_and, BitVec.getLsbD_setWidth, BitVec.getLsbD_append]
  interval_cases i <;> simp

theorem maskJ (off rd opcode) :
    encodeJ off rd opcode &&& 0x0000007F#32 = BitVec.setWidth 32 (opcode) := by
  refine BitVec.eq_of_getLsbD_eq fun i hi => ?_
  simp only [encodeJ, BitVec.getLsbD_and, BitVec.getLsbD_setWidth, BitVec.getLsbD_extractLsb', BitVec.getLsbD_append]
  interval_cases i <;> simp

theorem maskR (funct7 rs2 rs1 funct3 rd opcode) :
    encodeR funct7 rs2 rs1 funct3 rd opcode &&& 0xFE00707F#32 = BitVec.setWidth 32 (funct7 ++ 0#10 ++ funct3 ++ 0#5 ++ opcode) := by
  refine BitVec.eq_of_getLsbD_eq fun i hi => ?_
  simp only [encodeR, BitVec.getLsbD_and, BitVec.getLsbD_setWidth, BitVec.getLsbD_append]
  interval_cases i <;> simp

theorem maskShift (funct7 shamt rs1 funct3 rd opcode) :
    encodeShift funct7 shamt rs1 funct3 rd opcode &&& 0xFE00707F#32 = BitVec.setWidth 32 (funct7 ++ 0#10 ++ funct3 ++ 0#5 ++ opcode) := by
  refine BitVec.eq_of_getLsbD_eq fun i hi => ?_
  simp only [encodeShift, BitVec.getLsbD_and, BitVec.getLsbD_setWidth, BitVec.getLsbD_append]
  interval_cases i <;> simp

theorem maskRefused (fields opcode) :
    encodeRefused fields opcode &&& 0x0000007F#32 = BitVec.setWidth 32 (opcode) := by
  refine BitVec.eq_of_getLsbD_eq fun i hi => ?_
  simp only [encodeRefused, BitVec.getLsbD_and, BitVec.getLsbD_setWidth, BitVec.getLsbD_append]
  interval_cases i <;> simp

end Sys2Proof.Laws

namespace Sys2Proof.Laws.FixedBits

/-- The word of an instruction has the fixed bits of its row of the opcode table. -/
def Statement (i : Instr) : Prop :=
  ∃ row ∈ opcodeTable, row.mnemonic = i.mnemonic ∧ row.Matches (encode i)

theorem lui (rd : Reg) (imm : BitVec 20) : Statement (.lui rd imm) :=
  ⟨⟨"lui", 0x00000037, 0x0000007F⟩, by decide, rfl, (maskU _ _ _).trans (by decide)⟩

theorem auipc (rd : Reg) (imm : BitVec 20) : Statement (.auipc rd imm) :=
  ⟨⟨"auipc", 0x00000017, 0x0000007F⟩, by decide, rfl, (maskU _ _ _).trans (by decide)⟩

theorem jal (rd : Reg) (off : BitVec 21) : Statement (.jal rd off) :=
  ⟨⟨"jal", 0x0000006F, 0x0000007F⟩, by decide, rfl, (maskJ _ _ _).trans (by decide)⟩

theorem jalr (rd rs1 : Reg) (imm : BitVec 12) : Statement (.jalr rd rs1 imm) :=
  ⟨⟨"jalr", 0x00000067, 0x0000707F⟩, by decide, rfl, (maskI _ _ _ _ _).trans (by decide)⟩

theorem beq (rs1 rs2 : Reg) (off : BitVec 13) : Statement (.beq rs1 rs2 off) :=
  ⟨⟨"beq", 0x00000063, 0x0000707F⟩, by decide, rfl, (maskB _ _ _ _ _).trans (by decide)⟩

theorem bne (rs1 rs2 : Reg) (off : BitVec 13) : Statement (.bne rs1 rs2 off) :=
  ⟨⟨"bne", 0x00001063, 0x0000707F⟩, by decide, rfl, (maskB _ _ _ _ _).trans (by decide)⟩

theorem blt (rs1 rs2 : Reg) (off : BitVec 13) : Statement (.blt rs1 rs2 off) :=
  ⟨⟨"blt", 0x00004063, 0x0000707F⟩, by decide, rfl, (maskB _ _ _ _ _).trans (by decide)⟩

theorem bge (rs1 rs2 : Reg) (off : BitVec 13) : Statement (.bge rs1 rs2 off) :=
  ⟨⟨"bge", 0x00005063, 0x0000707F⟩, by decide, rfl, (maskB _ _ _ _ _).trans (by decide)⟩

theorem bltu (rs1 rs2 : Reg) (off : BitVec 13) : Statement (.bltu rs1 rs2 off) :=
  ⟨⟨"bltu", 0x00006063, 0x0000707F⟩, by decide, rfl, (maskB _ _ _ _ _).trans (by decide)⟩

theorem bgeu (rs1 rs2 : Reg) (off : BitVec 13) : Statement (.bgeu rs1 rs2 off) :=
  ⟨⟨"bgeu", 0x00007063, 0x0000707F⟩, by decide, rfl, (maskB _ _ _ _ _).trans (by decide)⟩

theorem lb (rd rs1 : Reg) (imm : BitVec 12) : Statement (.lb rd rs1 imm) :=
  ⟨⟨"lb", 0x00000003, 0x0000707F⟩, by decide, rfl, (maskI _ _ _ _ _).trans (by decide)⟩

theorem lh (rd rs1 : Reg) (imm : BitVec 12) : Statement (.lh rd rs1 imm) :=
  ⟨⟨"lh", 0x00001003, 0x0000707F⟩, by decide, rfl, (maskI _ _ _ _ _).trans (by decide)⟩

theorem lw (rd rs1 : Reg) (imm : BitVec 12) : Statement (.lw rd rs1 imm) :=
  ⟨⟨"lw", 0x00002003, 0x0000707F⟩, by decide, rfl, (maskI _ _ _ _ _).trans (by decide)⟩

theorem lbu (rd rs1 : Reg) (imm : BitVec 12) : Statement (.lbu rd rs1 imm) :=
  ⟨⟨"lbu", 0x00004003, 0x0000707F⟩, by decide, rfl, (maskI _ _ _ _ _).trans (by decide)⟩

theorem lhu (rd rs1 : Reg) (imm : BitVec 12) : Statement (.lhu rd rs1 imm) :=
  ⟨⟨"lhu", 0x00005003, 0x0000707F⟩, by decide, rfl, (maskI _ _ _ _ _).trans (by decide)⟩

theorem sb (rs2 rs1 : Reg) (imm : BitVec 12) : Statement (.sb rs2 rs1 imm) :=
  ⟨⟨"sb", 0x00000023, 0x0000707F⟩, by decide, rfl, (maskS _ _ _ _ _).trans (by decide)⟩

theorem sh (rs2 rs1 : Reg) (imm : BitVec 12) : Statement (.sh rs2 rs1 imm) :=
  ⟨⟨"sh", 0x00001023, 0x0000707F⟩, by decide, rfl, (maskS _ _ _ _ _).trans (by decide)⟩

theorem sw (rs2 rs1 : Reg) (imm : BitVec 12) : Statement (.sw rs2 rs1 imm) :=
  ⟨⟨"sw", 0x00002023, 0x0000707F⟩, by decide, rfl, (maskS _ _ _ _ _).trans (by decide)⟩

theorem addi (rd rs1 : Reg) (imm : BitVec 12) : Statement (.addi rd rs1 imm) :=
  ⟨⟨"addi", 0x00000013, 0x0000707F⟩, by decide, rfl, (maskI _ _ _ _ _).trans (by decide)⟩

theorem slti (rd rs1 : Reg) (imm : BitVec 12) : Statement (.slti rd rs1 imm) :=
  ⟨⟨"slti", 0x00002013, 0x0000707F⟩, by decide, rfl, (maskI _ _ _ _ _).trans (by decide)⟩

theorem sltiu (rd rs1 : Reg) (imm : BitVec 12) : Statement (.sltiu rd rs1 imm) :=
  ⟨⟨"sltiu", 0x00003013, 0x0000707F⟩, by decide, rfl, (maskI _ _ _ _ _).trans (by decide)⟩

theorem xori (rd rs1 : Reg) (imm : BitVec 12) : Statement (.xori rd rs1 imm) :=
  ⟨⟨"xori", 0x00004013, 0x0000707F⟩, by decide, rfl, (maskI _ _ _ _ _).trans (by decide)⟩

theorem ori (rd rs1 : Reg) (imm : BitVec 12) : Statement (.ori rd rs1 imm) :=
  ⟨⟨"ori", 0x00006013, 0x0000707F⟩, by decide, rfl, (maskI _ _ _ _ _).trans (by decide)⟩

theorem andi (rd rs1 : Reg) (imm : BitVec 12) : Statement (.andi rd rs1 imm) :=
  ⟨⟨"andi", 0x00007013, 0x0000707F⟩, by decide, rfl, (maskI _ _ _ _ _).trans (by decide)⟩

theorem slli (rd rs1 : Reg) (shamt : BitVec 5) : Statement (.slli rd rs1 shamt) :=
  ⟨⟨"slli", 0x00001013, 0xFE00707F⟩, by decide, rfl, (maskShift _ _ _ _ _ _).trans (by decide)⟩

theorem srli (rd rs1 : Reg) (shamt : BitVec 5) : Statement (.srli rd rs1 shamt) :=
  ⟨⟨"srli", 0x00005013, 0xFE00707F⟩, by decide, rfl, (maskShift _ _ _ _ _ _).trans (by decide)⟩

theorem srai (rd rs1 : Reg) (shamt : BitVec 5) : Statement (.srai rd rs1 shamt) :=
  ⟨⟨"srai", 0x40005013, 0xFE00707F⟩, by decide, rfl, (maskShift _ _ _ _ _ _).trans (by decide)⟩

theorem add (rd rs1 rs2 : Reg) : Statement (.add rd rs1 rs2) :=
  ⟨⟨"add", 0x00000033, 0xFE00707F⟩, by decide, rfl, (maskR _ _ _ _ _ _).trans (by decide)⟩

theorem sub (rd rs1 rs2 : Reg) : Statement (.sub rd rs1 rs2) :=
  ⟨⟨"sub", 0x40000033, 0xFE00707F⟩, by decide, rfl, (maskR _ _ _ _ _ _).trans (by decide)⟩

theorem sll (rd rs1 rs2 : Reg) : Statement (.sll rd rs1 rs2) :=
  ⟨⟨"sll", 0x00001033, 0xFE00707F⟩, by decide, rfl, (maskR _ _ _ _ _ _).trans (by decide)⟩

theorem slt (rd rs1 rs2 : Reg) : Statement (.slt rd rs1 rs2) :=
  ⟨⟨"slt", 0x00002033, 0xFE00707F⟩, by decide, rfl, (maskR _ _ _ _ _ _).trans (by decide)⟩

theorem sltu (rd rs1 rs2 : Reg) : Statement (.sltu rd rs1 rs2) :=
  ⟨⟨"sltu", 0x00003033, 0xFE00707F⟩, by decide, rfl, (maskR _ _ _ _ _ _).trans (by decide)⟩

theorem xor (rd rs1 rs2 : Reg) : Statement (.xor rd rs1 rs2) :=
  ⟨⟨"xor", 0x00004033, 0xFE00707F⟩, by decide, rfl, (maskR _ _ _ _ _ _).trans (by decide)⟩

theorem srl (rd rs1 rs2 : Reg) : Statement (.srl rd rs1 rs2) :=
  ⟨⟨"srl", 0x00005033, 0xFE00707F⟩, by decide, rfl, (maskR _ _ _ _ _ _).trans (by decide)⟩

theorem sra (rd rs1 rs2 : Reg) : Statement (.sra rd rs1 rs2) :=
  ⟨⟨"sra", 0x40005033, 0xFE00707F⟩, by decide, rfl, (maskR _ _ _ _ _ _).trans (by decide)⟩

theorem or (rd rs1 rs2 : Reg) : Statement (.or rd rs1 rs2) :=
  ⟨⟨"or", 0x00006033, 0xFE00707F⟩, by decide, rfl, (maskR _ _ _ _ _ _).trans (by decide)⟩

theorem and (rd rs1 rs2 : Reg) : Statement (.and rd rs1 rs2) :=
  ⟨⟨"and", 0x00007033, 0xFE00707F⟩, by decide, rfl, (maskR _ _ _ _ _ _).trans (by decide)⟩

theorem fence (fields : BitVec 25) : Statement (.fence fields) :=
  ⟨⟨"fence", 0x0000000F, 0x0000007F⟩, by decide, rfl, (maskRefused _ _).trans (by decide)⟩

theorem ecall : Statement (.ecall) :=
  ⟨⟨"ecall", 0x00000073, 0xFFFFFFFF⟩, by decide, rfl, by decide⟩

theorem ebreak : Statement (.ebreak) :=
  ⟨⟨"ebreak", 0x00100073, 0xFFFFFFFF⟩, by decide, rfl, by decide⟩

theorem systemOther (fields : BitVec 25) : Statement (.systemOther fields) :=
  ⟨⟨"system-other", 0x00000073, 0x0000007F⟩, by decide, rfl, (maskRefused _ _).trans (by decide)⟩

end Sys2Proof.Laws.FixedBits
end

