-- ==== Sys2Proof/Laws/Step.lean ====
section
/-! SUPPORT. Everything one instruction and one step can do, said once; the invariant proofs start here. -/

namespace Sys2Proof.Machine

/-- What running an instruction may end in: an effect record committed, whose register is the instruction's
destination, whose memory write is a store's and in bounds, whose target is a jump's or branch's; or one of
the faults an instruction raises. A refusal is not among them. -/
def CanEnd (store transfer : Bool) (dest : Option Reg) (s : State) (r : Result) : Prop :=
  (∃ e : Effect, r = .next (commit e s) ∧
    (∀ p, e.reg = some p → dest = some p.1) ∧
    (∀ w, e.mem = some w → store = true ∧ InBounds w.addr w.width s) ∧
    (∀ x, e.target = some x → transfer = true)) ∨
  (∃ word, r = .fault (.invalidEncoding .unmapped word)) ∨
  (∃ addr w, r = .fault (.outOfBounds .load addr w) ∨ r = .fault (.outOfBounds .store addr w))

theorem writeResult_can (rd : Reg) (v : Word) (s : State) :
    CanEnd false false (some rd) s (writeResult rd v s) :=
  .inl ⟨_, rfl, by simp, by simp, by simp⟩

theorem jumpAndLink_can (rd : Reg) (target : Word) (s : State) :
    CanEnd false true (some rd) s (jumpAndLink rd target s) :=
  .inl ⟨_, rfl, by simp, by simp, by simp⟩

theorem branchIf_can (taken : Bool) (target : Word) (s : State) :
    CanEnd false true none s (branchIf taken target s) :=
  .inl ⟨_, rfl, by simp, by simp, by simp⟩

theorem loadTo_can (rd : Reg) (addr : Word) (w : Width) (extend : Word → Word) (s : State) :
    CanEnd false false (some rd) s (loadTo rd addr w extend s) := by
  by_cases h : InBounds addr w s
  · simp only [loadTo, memRead_ok h]
    exact writeResult_can rd _ s
  · exact .inr (.inr ⟨addr, w.bytes, .inl (loadTo_fault h)⟩)

theorem storeTo_can (addr : Word) (w : Width) (v : Word) (s : State) :
    CanEnd true false none s (storeTo addr w v s) := by
  by_cases h : InBounds addr w s
  · refine .inl ⟨{ mem := some ⟨addr, w, v⟩ }, if_pos h, by simp, ?_, by simp⟩
    rintro w' ⟨⟩
    exact ⟨rfl, h⟩
  · exact .inr (.inr ⟨addr, w.bytes, .inr (storeTo_fault h)⟩)

theorem raise_can (word : Word) (s : State) : CanEnd false false none s (raiseUnmapped word) :=
  .inr (.inl ⟨word, rfl⟩)

/-- Everything executing an instruction can do. -/
theorem exec_can (i : Instr) (s : State) : CanEnd i.isStore i.isTransfer i.destination s (exec i s) := by
  cases i with
  | lui rd imm => exact writeResult_can _ _ _
  | auipc rd imm => exact writeResult_can _ _ _
  | jal rd off => exact jumpAndLink_can _ _ _
  | jalr rd rs1 imm => exact jumpAndLink_can _ _ _
  | beq rs1 rs2 off => exact branchIf_can _ _ _
  | bne rs1 rs2 off => exact branchIf_can _ _ _
  | blt rs1 rs2 off => exact branchIf_can _ _ _
  | bge rs1 rs2 off => exact branchIf_can _ _ _
  | bltu rs1 rs2 off => exact branchIf_can _ _ _
  | bgeu rs1 rs2 off => exact branchIf_can _ _ _
  | lb rd rs1 imm => exact loadTo_can _ _ _ _ _
  | lh rd rs1 imm => exact loadTo_can _ _ _ _ _
  | lw rd rs1 imm => exact loadTo_can _ _ _ _ _
  | lbu rd rs1 imm => exact loadTo_can _ _ _ _ _
  | lhu rd rs1 imm => exact loadTo_can _ _ _ _ _
  | sb rs2 rs1 imm => exact storeTo_can _ _ _ _
  | sh rs2 rs1 imm => exact storeTo_can _ _ _ _
  | sw rs2 rs1 imm => exact storeTo_can _ _ _ _
  | addi rd rs1 imm => exact writeResult_can _ _ _
  | slti rd rs1 imm => exact writeResult_can _ _ _
  | sltiu rd rs1 imm => exact writeResult_can _ _ _
  | xori rd rs1 imm => exact writeResult_can _ _ _
  | ori rd rs1 imm => exact writeResult_can _ _ _
  | andi rd rs1 imm => exact writeResult_can _ _ _
  | slli rd rs1 shamt => exact writeResult_can _ _ _
  | srli rd rs1 shamt => exact writeResult_can _ _ _
  | srai rd rs1 shamt => exact writeResult_can _ _ _
  | add rd rs1 rs2 => exact writeResult_can _ _ _
  | sub rd rs1 rs2 => exact writeResult_can _ _ _
  | sll rd rs1 rs2 => exact writeResult_can _ _ _
  | slt rd rs1 rs2 => exact writeResult_can _ _ _
  | sltu rd rs1 rs2 => exact writeResult_can _ _ _
  | xor rd rs1 rs2 => exact writeResult_can _ _ _
  | srl rd rs1 rs2 => exact writeResult_can _ _ _
  | sra rd rs1 rs2 => exact writeResult_can _ _ _
  | or rd rs1 rs2 => exact writeResult_can _ _ _
  | and rd rs1 rs2 => exact writeResult_can _ _ _
  | fence fields => exact raise_can _ _
  | ecall => exact raise_can _ _
  | ebreak => exact raise_can _ _
  | systemOther fields => exact raise_can _ _

/-- The ways a step can end: a fetch fault, an invalid encoding, or whatever the decoded instruction does
(R121). -/
theorem step_cases (s : State) :
    (∃ f, fetch s = .error f ∧ step s = .fault f) ∨
    (∃ w reason, fetch s = .ok w ∧ decode w = .error reason ∧ step s = .fault (.invalidEncoding reason w)) ∨
    (∃ w i, fetch s = .ok w ∧ decode w = .ok i ∧ step s = exec i s) := by
  unfold step
  cases hf : fetch s with
  | error f => exact .inl ⟨f, rfl, rfl⟩
  | ok w =>
    cases hd : decode w with
    | error reason => exact .inr (.inl ⟨w, reason, rfl, hd, by simp [hd]⟩)
    | ok i => exact .inr (.inr ⟨w, i, rfl, hd, by simp [hd]⟩)

/-- A step that answers a next state committed the decoded instruction's effect. -/
theorem step_next {s t : State} (h : step s = .next t) :
    ∃ w i, fetch s = .ok w ∧ decode w = .ok i ∧ exec i s = .next t ∧ ∃ e : Effect, t = commit e s ∧
      (∀ p, e.reg = some p → i.destination = some p.1) ∧
      (∀ w, e.mem = some w → i.isStore = true ∧ InBounds w.addr w.width s) ∧
      (∀ x, e.target = some x → i.isTransfer = true) := by
  rcases step_cases s with ⟨f, -, hs⟩ | ⟨w, r, -, -, hs⟩ | ⟨w, i, hf, hd, hs⟩
  · rw [hs] at h; cases h
  · rw [hs] at h; cases h
  · rw [hs] at h
    refine ⟨w, i, hf, hd, h, ?_⟩
    rcases exec_can i s with ⟨e, he, hr, hm, ht⟩ | ⟨w, he⟩ | ⟨a, n, he | he⟩
    · rw [he] at h; cases h
      exact ⟨e, rfl, hr, hm, ht⟩
    all_goals rw [he] at h; cases h

end Sys2Proof.Machine
end

