-- ==== Sys2Proof/Laws/Toolchain.lean ====
section
/-! SUPPORT. What reading tokens and assembling a line as written can do. -/

namespace Sys2Proof.Machine

/-- A run of digits reads as the number it writes. -/
theorem digitsValue_map {digit : Char → Option Nat} {radix : Nat} {write : Nat → Char} {ds : List Nat}
    (h : ∀ d ∈ ds, digit (write d) = some d) (acc : Nat) :
    digitsValue digit radix (ds.map write) acc = some (ds.foldl (fun a d => a * radix + d) acc) := by
  induction ds generalizing acc with
  | nil => rfl
  | cons d ds ih => simp [digitsValue, h d (by simp), ih fun x hx => h x (by simp [hx])]

/-- A character that is no digit makes the whole run read as nothing. -/
theorem digitsValue_append_none {digit : Char → Option Nat} {radix : Nat} {before after : List Char}
    {c : Char} (h : digit c = none) (acc : Nat) :
    digitsValue digit radix (before ++ c :: after) acc = none := by
  induction before generalizing acc with
  | nil => simp [digitsValue, h]
  | cons a l ih => simp only [List.cons_append, digitsValue]; split <;> simp [ih]

/-- One token that reads as nothing makes the whole line read as nothing. -/
theorem readTokens_none {o : AsmToken} {ts : List AsmToken} (ho : o ∈ ts) (h : readToken o = none) :
    readTokens ts = none := by
  induction ts with
  | nil => cases ho
  | cons t ts ih =>
    rcases List.mem_cons.1 ho with rfl | ho
    · simp [readTokens, h]
    · simp [readTokens, ih ho]

/-- The two ways `assembleText` can end. -/
theorem assembleText_cases (t : AsmText) :
    (∃ line, readText t = some line ∧ assembleText t = assemble line) ∨
      (readText t = none ∧ assembleText t = asmSentinel) := by
  unfold assembleText
  cases readText t with
  | none => exact .inr ⟨rfl, rfl⟩
  | some line => exact .inl ⟨line, rfl, rfl⟩

end Sys2Proof.Machine
end

