-- ==== Sys2Proof/Laws/Values.lean ====
section
/-! SUPPORT. The values of operands, targets and loaded bytes as numbers, so that results can be stated and
compared without unfolding bit operations. -/

namespace Sys2Proof.Machine

theorem toNat_upperImmediate (imm : BitVec 20) : (upperImmediate imm).toNat = imm.toNat * 2 ^ 12 := by
  have h : (imm ++ 0#12 : BitVec (20 + 12)).toNat = imm.toNat <<< 12 ||| (0#12).toNat :=
    BitVec.toNat_append imm 0#12
  show (imm ++ 0#12 : BitVec (20 + 12)).toNat = _
  rw [h]; simp [Nat.shiftLeft_eq]

theorem signExtend12_eq (imm : BitVec 12) : signExtend12 imm = BitVec.ofInt 32 imm.toInt := rfl

theorem toInt_signExtend12 (imm : BitVec 12) : (signExtend12 imm).toInt = imm.toInt :=
  BitVec.toInt_signExtend_of_le (by omega)

theorem effectiveAddress_eq (rs1 : Reg) (imm : BitVec 12) (s : State) :
    effectiveAddress rs1 imm s = BitVec.ofInt 32 ((readX rs1 s).toInt + imm.toInt) := by
  simp [BitVec.ofInt_add, effectiveAddress, signExtend12_eq]

theorem branchTarget_eq (off : BitVec 13) (s : State) :
    branchTarget off s = BitVec.ofInt 32 (s.pc.toInt + off.toInt) := by
  simp [BitVec.ofInt_add, branchTarget, signExtend13, BitVec.signExtend]

theorem jalTarget_eq (off : BitVec 21) (s : State) :
    jalTarget off s = BitVec.ofInt 32 (s.pc.toInt + off.toInt) := by
  simp [BitVec.ofInt_add, jalTarget, signExtend21, BitVec.signExtend]

/-- Clearing bit 0 leaves the even number at or below. -/
theorem clearBit0_eq (x : Word) : x &&& 0xFFFFFFFE = BitVec.ofNat 32 (2 * (x.toNat / 2)) := by
  have h : x &&& 0xFFFFFFFE#32 = (x >>> 1) <<< 1 := by
    apply BitVec.eq_of_getLsbD_eq
    intro i hi
    interval_cases i <;> simp
  show x &&& 0xFFFFFFFE#32 = _
  rw [h]
  apply BitVec.eq_of_toNat_eq
  simp [Nat.shiftLeft_eq, Nat.shiftRight_eq_div_pow, Nat.mul_comm]

theorem shiftOfWord_eq (v : Word) : shiftOfWord v = v.toNat % 32 := by
  have : (31 : Nat) = 2 ^ 5 - 1 := rfl
  simp only [shiftOfWord, BitVec.toNat_and]
  exact Nat.and_two_pow_sub_one_eq_mod v.toNat 5

theorem shiftLeft_eq (a : Word) (n : Nat) : a <<< n = BitVec.ofNat 32 (a.toNat * 2 ^ n) := by
  apply BitVec.eq_of_toNat_eq
  simp [Nat.shiftLeft_eq]

theorem shiftRight_eq (a : Word) (n : Nat) : a >>> n = BitVec.ofNat 32 (a.toNat / 2 ^ n) := by
  apply BitVec.eq_of_toNat_eq
  rw [BitVec.toNat_ushiftRight, Nat.shiftRight_eq_div_pow, BitVec.toNat_ofNat, Nat.mod_eq_of_lt]
  exact Nat.lt_of_le_of_lt (Nat.div_le_self _ _) a.isLt

theorem sshiftRight_eq (a : Word) (n : Nat) : a.sshiftRight n = BitVec.ofInt 32 (a.toInt / 2 ^ n) := by
  simp [BitVec.sshiftRight, Int.shiftRight_eq_div_pow]

/-- The value read from two bytes and from four, the first least significant. -/
theorem wordOfBytes_two (m : Memory) (a : Nat) :
    (wordOfBytes (readBytes m a 2)).setWidth 16 = readByte m (a + 1) ++ readByte m a := by
  generalize h0 : readByte m a = x
  generalize h1 : readByte m (a + 1) = y
  simp only [readBytes, wordOfBytes, h0, h1]
  show _ = (y ++ x : BitVec (8 + 8))
  apply BitVec.eq_of_getLsbD_eq
  intro i hi
  rw [BitVec.getLsbD_append]
  interval_cases i <;> simp

theorem wordOfBytes_four (m : Memory) (a : Nat) :
    wordOfBytes (readBytes m a 4) =
      readByte m (a + 3) ++ readByte m (a + 2) ++ readByte m (a + 1) ++ readByte m a := by
  generalize h0 : readByte m a = x
  generalize h1 : readByte m (a + 1) = y
  generalize h2 : readByte m (a + 2) = z
  generalize h3 : readByte m (a + 3) = u
  simp only [readBytes, wordOfBytes, Nat.add_assoc, h0, h1, h2, h3]
  show _ = (u ++ z ++ y ++ x : BitVec (8 + 8 + 8 + 8))
  apply BitVec.eq_of_getLsbD_eq
  intro i hi
  rw [BitVec.getLsbD_append, BitVec.getLsbD_append, BitVec.getLsbD_append]
  interval_cases i <;> simp

theorem toNat_append_bytes (x y : Byte) : (y ++ x : BitVec (8 + 8)).toNat = y.toNat * 2 ^ 8 + x.toNat := by
  rw [BitVec.toNat_append, ← Nat.shiftLeft_add_eq_or_of_lt x.isLt, Nat.shiftLeft_eq]

end Sys2Proof.Machine
end

