-- ==== Sys2Proof/Tests/Slice0.lean ====
section
/-! SUPPORT. Tests of the model on the words and values the spec gives (the rules' examples and
95_test_vectors.md, whose V-numbers are named), and for every statement with hypotheses a state and operands
that meet them. -/

namespace Sys2Proof.Tests

open Sys2Proof Sys2Proof.Machine

/-! ## Building small states (95_test_vectors.md, Conventions) -/

/-- A machine of the default capacity with these words from the pc up, these registers, every other register
0 and no other byte set. -/
def machine (pc : Word) (words : List Word) (regs : List (Nat × Word)) : State :=
  regs.foldl (fun s p => setRegister p.1 p.2 s)
    { x := Vector.replicate 31 0, pc := pc, mem := writeBytes [] pc.toNat (words.flatMap (bytesOfWord 4)),
      bkpts := [], cfg := Config.standard }

/-- The same machine with these bytes from an address up. -/
def withBytes (a : Nat) (bs : List Byte) (s : State) : State := { s with mem := writeBytes s.mem a bs }

/-- A register and the pc after one step, if it completes. -/
def after (r : Reg) (s : State) : Option (Word × Word) :=
  match step s with
  | .next t => some (readX r t, t.pc)
  | .fault _ => none
  | .refused _ => none

/-- Bytes of memory and the pc after one step, if it completes. -/
def bytesAfter (a n : Nat) (s : State) : Option (List Byte × Word) :=
  match step s with
  | .next t => some (readBytes t.mem a n, t.pc)
  | .fault _ => none
  | .refused _ => none

/-! ## Well-formedness: what each check refuses -/

theorem test_wellFormed_refuses_odd_jal : (Instr.jal 1 3).wellFormed = false := by decide
theorem test_wellFormed_refuses_odd_beq : (Instr.beq 1 2 1).wellFormed = false := by decide
theorem test_wellFormed_refuses_odd_bne : (Instr.bne 1 2 (-1)).wellFormed = false := by decide
theorem test_wellFormed_refuses_odd_blt : (Instr.blt 1 2 5).wellFormed = false := by decide
theorem test_wellFormed_refuses_odd_bge : (Instr.bge 1 2 7).wellFormed = false := by decide
theorem test_wellFormed_refuses_odd_bltu : (Instr.bltu 1 2 9).wellFormed = false := by decide
theorem test_wellFormed_refuses_odd_bgeu : (Instr.bgeu 1 2 11).wellFormed = false := by decide
theorem test_wellFormed_refuses_system_other_ecall : (Instr.systemOther ecallFields).wellFormed = false := by
  decide
theorem test_wellFormed_refuses_system_other_ebreak : (Instr.systemOther ebreakFields).wellFormed = false := by
  decide

/-! ## Decoding: a word of every row, from the rule of the row or its V-vectors -/

theorem test_decode_lui : decode 0x123452B7 = .ok (.lui 5 0x12345) := by decide
theorem test_decode_auipc : decode 0x00001317 = .ok (.auipc 6 1) := by decide
theorem test_decode_jal : decode 0xFF9FF0EF = .ok (.jal 1 (-8)) := by decide
theorem test_decode_jalr : decode 0x005280E7 = .ok (.jalr 1 5 5) := by decide
theorem test_decode_beq : decode 0x00208863 = .ok (.beq 1 2 16) := by decide
theorem test_decode_bne : decode 0xFE209EE3 = .ok (.bne 1 2 (-4)) := by decide
theorem test_decode_blt : decode 0x0020C463 = .ok (.blt 1 2 8) := by decide
theorem test_decode_bge : decode 0x0020D463 = .ok (.bge 1 2 8) := by decide
theorem test_decode_bltu : decode 0x0020E463 = .ok (.bltu 1 2 8) := by decide
theorem test_decode_bgeu : decode 0x0020F463 = .ok (.bgeu 1 2 8) := by decide
theorem test_decode_lb : decode 0x00050283 = .ok (.lb 5 10 0) := by decide
theorem test_decode_lh : decode 0x00251283 = .ok (.lh 5 10 2) := by decide
theorem test_decode_lw : decode 0xFFC52283 = .ok (.lw 5 10 (-4)) := by decide
theorem test_decode_lbu : decode 0x00054283 = .ok (.lbu 5 10 0) := by decide
theorem test_decode_lhu : decode 0x00255283 = .ok (.lhu 5 10 2) := by decide
theorem test_decode_sb : decode 0x006500A3 = .ok (.sb 6 10 1) := by decide
theorem test_decode_sh : decode 0x00651123 = .ok (.sh 6 10 2) := by decide
theorem test_decode_sw : decode 0xFE652E23 = .ok (.sw 6 10 (-4)) := by decide
theorem test_decode_addi : decode 0x00528313 = .ok (.addi 6 5 5) := by decide
theorem test_decode_slti : decode 0xFFF32293 = .ok (.slti 5 6 (-1)) := by decide
theorem test_decode_sltiu : decode 0xFFF33293 = .ok (.sltiu 5 6 (-1)) := by decide
theorem test_decode_xori : decode 0xFFF34293 = .ok (.xori 5 6 (-1)) := by decide
theorem test_decode_ori : decode 0x0F036293 = .ok (.ori 5 6 0xF0) := by decide
theorem test_decode_andi : decode 0x0FF37293 = .ok (.andi 5 6 0xFF) := by decide
theorem test_decode_slli : decode 0x00431293 = .ok (.slli 5 6 4) := by decide
theorem test_decode_srli : decode 0x00435293 = .ok (.srli 5 6 4) := by decide
theorem test_decode_srai : decode 0x40435293 = .ok (.srai 5 6 4) := by decide
theorem test_decode_add : decode 0x002081B3 = .ok (.add 3 1 2) := by decide
theorem test_decode_sub : decode 0x402081B3 = .ok (.sub 3 1 2) := by decide
theorem test_decode_sll : decode 0x002091B3 = .ok (.sll 3 1 2) := by decide
theorem test_decode_slt : decode 0x0020A1B3 = .ok (.slt 3 1 2) := by decide
theorem test_decode_sltu : decode 0x0020B1B3 = .ok (.sltu 3 1 2) := by decide
theorem test_decode_xor : decode 0x0020C1B3 = .ok (.xor 3 1 2) := by decide
theorem test_decode_srl : decode 0x0020D1B3 = .ok (.srl 3 1 2) := by decide
theorem test_decode_sra : decode 0x4020D1B3 = .ok (.sra 3 1 2) := by decide
theorem test_decode_or : decode 0x0020E1B3 = .ok (.or 3 1 2) := by decide
theorem test_decode_and : decode 0x0020F1B3 = .ok (.and 3 1 2) := by decide
theorem test_decode_fence : decode 0x0FF0000F = .ok (.fence 0x1FE000) := by decide
theorem test_decode_ecall : decode 0x00000073 = .ok .ecall := by decide
theorem test_decode_ebreak : decode 0x00100073 = .ok .ebreak := by decide
theorem test_decode_systemOther : decode 0xC00022F3 = .ok (.systemOther 0x1800045) := by decide

/-! ## Decoding: what is refused (R94, and the words of D-STEP and of rule R94's list) -/

theorem test_decode_refuses_zero : decode 0x00000000 = .error .lengthBits := by decide
theorem test_decode_refuses_length_bits : decode 0xFFFFFFFC = .error .lengthBits := by decide
theorem test_decode_refuses_ones : decode 0xFFFFFFFF = .error .unmapped := by decide
theorem test_decode_refuses_custom : decode 0x0000000B = .error .unmapped := by decide
theorem test_decode_refuses_jalr_funct3 : decode 0x000090E7 = .error .unmapped := by decide
/-- `mul x3, x1, x2`: OP with `funct7 = 0000001`. -/
theorem test_decode_refuses_mul : decode 0x022081B3 = .error .unmapped := by decide
/-- `slli` with `word[30] = 1`. -/
theorem test_decode_refuses_slli_bit30 : decode 0x40431293 = .error .unmapped := by decide
theorem test_decodeExecutable_refuses_fence : decodeExecutable 0x0FF0000F = .error .unmapped := by decide
theorem test_decodeExecutable_refuses_ecall : decodeExecutable 0x00000073 = .error .unmapped := by decide
theorem test_decodeBytes_truncated : decodeBytes [0x13, 0x00, 0x00] = .error .truncated := by decide
/-- The rows of the table overlap only where `ecall` and `ebreak` lie inside `system-other` (R233). -/
theorem test_table_rows_are_distinct : (opcodeTable.map (·.mnemonic)).Nodup ∧ opcodeTable.length = 41 := by
  decide

/-! ## One step of every instruction -/

/-- R140, V-U-1. -/
theorem test_step_lui :
    after 5 (machine 0x100 [0x123452B7] []) = some (0x12345000, 0x104) := by decide
/-- V-U-4. -/
theorem test_step_auipc_wraps :
    after 6 (machine 0x1000 [0xFFFFF317] [(6, 0x55)]) = some (0, 0x1004) := by decide
/-- W1. -/
theorem test_step_jal :
    after 1 (machine 0x20000 [0xFF9FF0EF] []) = some (0x20004, 0x1FFF8) := by decide
/-- V-J-4. -/
theorem test_step_jal_largest_offset :
    after 1 (machine 0x100 [0x7FFFF0EF] []) = some (0x104, 0x1000FE) := by decide
/-- V-J-5. -/
theorem test_step_jalr_clears_bit0 :
    after 1 (machine 0x100 [0x005280E7] [(5, 0x200)]) = some (0x104, 0x204) := by decide
/-- V-J-6. -/
theorem test_step_jalr_same_register :
    after 1 (machine 0x40 [0x000080E7] [(1, 0x200)]) = some (0x44, 0x200) := by decide
/-- V-B-1. -/
theorem test_step_beq :
    after 1 (machine 0x100 [0x00208863] [(1, 3), (2, 3)]) = some (3, 0x110) := by decide
/-- V-B-2. -/
theorem test_step_bne :
    after 1 (machine 0x100 [0xFE209EE3] [(1, 3), (2, 4)]) = some (3, 0xFC) := by decide
/-- V-B-7. -/
theorem test_step_blt_signed :
    after 1 (machine 0x100 [0x0020C463] [(1, 0xFFFFFFFF), (2, 1)]) = some (0xFFFFFFFF, 0x108) := by decide
/-- V-B-9. -/
theorem test_step_bge_signed :
    after 1 (machine 0x100 [0x0020D463] [(1, 0xFFFFFFFF), (2, 1)]) = some (0xFFFFFFFF, 0x104) := by decide
/-- V-B-10. -/
theorem test_step_bge_equal :
    after 1 (machine 0x100 [0x0020D463] [(1, 1), (2, 1)]) = some (1, 0x108) := by decide
/-- R156. -/
theorem test_step_bltu_unsigned :
    after 1 (machine 0x100 [0x0020E463] [(1, 0xFFFFFFFF), (2, 1)]) = some (0xFFFFFFFF, 0x104) := by decide
/-- R157. -/
theorem test_step_bgeu_unsigned :
    after 1 (machine 0x100 [0x0020F463] [(1, 0xFFFFFFFF), (2, 1)]) = some (0xFFFFFFFF, 0x108) := by decide
/-- R171. -/
theorem test_step_lb :
    after 5 (withBytes 0x2000 [0xF0] (machine 0x100 [0x00050283] [(10, 0x2000)])) = some (0xFFFFFFF0, 0x104) := by decide
/-- R172. -/
theorem test_step_lh :
    after 5 (withBytes 0x2002 [0x34, 0x92] (machine 0x100 [0x00251283] [(10, 0x2000)])) = some (0xFFFF9234, 0x104) := by decide
/-- R173. -/
theorem test_step_lw :
    after 5 (withBytes 0x1FFC [0x44, 0x33, 0x22, 0x11] (machine 0x100 [0xFFC52283] [(10, 0x2000)])) = some (0x11223344, 0x104) := by decide
/-- R174. -/
theorem test_step_lbu :
    after 5 (withBytes 0x2000 [0xF0] (machine 0x100 [0x00054283] [(10, 0x2000)])) = some (0xF0, 0x104) := by decide
/-- R175. -/
theorem test_step_lhu :
    after 5 (withBytes 0x2002 [0x34, 0x92] (machine 0x100 [0x00255283] [(10, 0x2000)])) = some (0x9234, 0x104) := by decide
/-- W2. -/
theorem test_step_addi :
    after 6 (machine 0x100 [0x00528313] [(5, 10)]) = some (15, 0x104) := by decide
/-- W5. -/
theorem test_step_addi_to_x0 :
    after 0 (machine 0x100 [0x00500013] []) = some (0, 0x104) := by decide
/-- R191. -/
theorem test_step_slti :
    after 5 (machine 0x100 [0xFFF32293] [(6, 0xFFFFFFFE)]) = some (1, 0x104) := by decide
/-- R192. -/
theorem test_step_sltiu :
    after 5 (machine 0x100 [0xFFF33293] [(6, 5)]) = some (1, 0x104) := by decide
/-- R193. -/
theorem test_step_xori :
    after 5 (machine 0x100 [0xFFF34293] [(6, 0x0F0F0F0F)]) = some (0xF0F0F0F0, 0x104) := by decide
/-- R194. -/
theorem test_step_ori :
    after 5 (machine 0x100 [0x0F036293] [(6, 0x0F)]) = some (0xFF, 0x104) := by decide
/-- R195. -/
theorem test_step_andi :
    after 5 (machine 0x100 [0x0FF37293] [(6, 0x12345678)]) = some (0x78, 0x104) := by decide
/-- R196. -/
theorem test_step_slli :
    after 5 (machine 0x100 [0x00431293] [(6, 0x80000001)]) = some (0x10, 0x104) := by decide
/-- R197. -/
theorem test_step_srli :
    after 5 (machine 0x100 [0x00435293] [(6, 0x80000000)]) = some (0x08000000, 0x104) := by decide
/-- R198. -/
theorem test_step_srai :
    after 5 (machine 0x100 [0x40435293] [(6, 0x80000000)]) = some (0xF8000000, 0x104) := by decide
/-- W3. -/
theorem test_step_add :
    after 3 (machine 0x100 [0x002081B3] [(1, 5), (2, 3)]) = some (8, 0x104) := by decide
/-- W3. -/
theorem test_step_sub :
    after 3 (machine 0x100 [0x402081B3] [(1, 5), (2, 3)]) = some (2, 0x104) := by decide
/-- R212. -/
theorem test_step_sll_amount_modulo_32 :
    after 3 (machine 0x100 [0x002091B3] [(1, 1), (2, 33)]) = some (2, 0x104) := by decide
/-- R213. -/
theorem test_step_slt :
    after 3 (machine 0x100 [0x0020A1B3] [(1, 0xFFFFFFFF), (2, 1)]) = some (1, 0x104) := by decide
/-- R214. -/
theorem test_step_sltu :
    after 3 (machine 0x100 [0x0020B1B3] [(1, 0xFFFFFFFF), (2, 1)]) = some (0, 0x104) := by decide
/-- R215. -/
theorem test_step_xor :
    after 3 (machine 0x100 [0x0020C1B3] [(1, 0xFF00FF00), (2, 0x0FF00FF0)]) = some (0xF0F0F0F0, 0x104) := by decide
/-- R216. -/
theorem test_step_srl :
    after 3 (machine 0x100 [0x0020D1B3] [(1, 0x80000000), (2, 31)]) = some (1, 0x104) := by decide
/-- R217. -/
theorem test_step_sra :
    after 3 (machine 0x100 [0x4020D1B3] [(1, 0x80000000), (2, 31)]) = some (0xFFFFFFFF, 0x104) := by decide
/-- R218. -/
theorem test_step_or :
    after 3 (machine 0x100 [0x0020E1B3] [(1, 0xF0), (2, 0x0F)]) = some (0xFF, 0x104) := by decide
/-- R219. -/
theorem test_step_and :
    after 3 (machine 0x100 [0x0020F1B3] [(1, 0xF0), (2, 0x3C)]) = some (0x30, 0x104) := by decide
/-- R176. -/
theorem test_step_sb :
    bytesAfter 0x2000 3 (machine 0x100 [0x006500A3] [(6, 0x123456AB), (10, 0x2000)]) =
      some ([0x00, 0xAB, 0x00], 0x104) := by decide
/-- R177. -/
theorem test_step_sh :
    bytesAfter 0x2001 4 (machine 0x100 [0x00651123] [(6, 0x123456AB), (10, 0x2000)]) =
      some ([0x00, 0xAB, 0x56, 0x00], 0x104) := by decide
/-- R178. -/
theorem test_step_sw :
    bytesAfter 0x1FFC 4 (machine 0x100 [0xFE652E23] [(6, 0x11223344), (10, 0x2000)]) =
      some ([0x44, 0x33, 0x22, 0x11], 0x104) := by decide
/-- R230. -/
theorem test_step_fence_faults :
    step (machine 0x100 [0x0FF0000F] []) = .fault (.invalidEncoding .unmapped 0x0FF0000F) := by rfl
/-- R231. -/
theorem test_step_ecall_faults :
    step (machine 0x100 [0x00000073] []) = .fault (.invalidEncoding .unmapped 0x00000073) := by rfl
/-- R232. -/
theorem test_step_ebreak_faults :
    step (machine 0x100 [0x00100073] []) = .fault (.invalidEncoding .unmapped 0x00100073) := by rfl
/-- R233. -/
theorem test_step_rdcycle_faults :
    step (machine 0x100 [0xC00022F3] []) = .fault (.invalidEncoding .unmapped 0xC00022F3) := by rfl

/-! ## Faults, the call and the host's ports -/

/-- W8: the halfword's first byte is in bounds, its second is not. -/
theorem test_store_across_the_end_faults :
    step (machine 0x100 [0x00651023] [(6, 0xFFFFFFFF), (10, 0x00FFFFFF)]) =
      .fault (.outOfBounds .store 0x00FFFFFF 2) := by rfl
/-- W8: the last byte of memory is written. -/
theorem test_store_to_the_last_byte :
    bytesAfter 0xFFFFFC 4 (machine 0x100 [0x00650023] [(6, 0xFFFFFFFF), (10, 0x00FFFFFF)]) =
      some ([0, 0, 0, 0xFF], 0x104) := by decide
/-- V-STEP-2. -/
theorem test_fetch_at_the_end_faults :
    stepCall 3 (machine 0x01000000 [] []) =
      ⟨machine 0x01000000 [] [], 3, .fault (.outOfBounds .fetch 0x01000000 4)⟩ := by decide
/-- V-STEP-3: alignment is checked before the bound. -/
theorem test_misaligned_before_out_of_bounds :
    (stepCall 3 (machine 0x01000002 [] [])).status = .fault (.misalignedFetch 0x01000002) := by decide
/-- V-STEP-5: the last word can be fetched. -/
theorem test_last_word_is_fetched :
    (stepCall 3 (machine 0x00FFFFFC [] [])).status = .fault (.invalidEncoding .lengthBits 0) := by decide
/-- V-STEP-11 with one instruction before the fault: the count is the budget not used. -/
theorem test_fault_counts_its_unit :
    let r := stepCall 2 (machine 0 [0x00128293] [])
    (r.remaining, r.status, readX 5 r.state, r.state.pc) =
      (1, .fault (.invalidEncoding .lengthBits 0), 1, 4) := by decide
/-- V-STEP-14: an aligned `POISON` beyond memory. The value is illustrative. -/
theorem test_step_after_reset_with_aligned_poison :
    step (State.powerOn { memSize := 0x01000000, poison := 0xDEADBEEC }) =
      .fault (.outOfBounds .fetch 0xDEADBEEC 4) := by rfl
/-- V-REG-1, V-REG-6. -/
theorem test_set_register_without_effect :
    setRegister 0 7 (machine 0x100 [] []) = machine 0x100 [] [] ∧
    setRegister 33 1 (machine 0x100 [] []) = machine 0x100 [] [] := by decide
/-- V-REG-2, V-REG-3, V-REG-4, V-REG-5. -/
theorem test_get_register :
    let s := machine 0x100 [] [(8, 0x55)]
    getRegister (.name "s0") s = some 0x55 ∧ getRegister (.name "x8") s = some 0x55 ∧
    getRegister (.index 8) s = some 0x55 ∧ getRegister (.name "fp") s = none ∧
    getRegister (.name "X8") s = none ∧ getRegister (.name "pc") s = some 0x100 ∧
    getRegister (.index 33) s = none := by decide
/-- V-REG-8, V-REG-9. -/
theorem test_breakpoints :
    let s := setBreakpoint 0x104 true (machine 0x100 [] [])
    getBreakpoint 0x104 s = true ∧ getBreakpoint 0x107 s = true ∧ getBreakpoint 0x108 s = false ∧
    getBreakpoint 0x01000000 s = false ∧ setBreakpoint 0x106 false s = machine 0x100 [] [] := by decide
/-- V-MEM-1, V-MEM-2, V-MEM-3. -/
theorem test_memory_ports_are_little_endian :
    let s := (hostCall (.writeMemory .word 0x100 0x11223344) (machine 0 [] [])).1
    readBytes s.mem 0x100 4 = [0x44, 0x33, 0x22, 0x11] ∧
    (hostCall (.readMemory .half 0x101) s).2 = .value 0x2233 ∧
    (hostCall (.readMemory .byte 0x103) s).2 = .value 0x11 := by decide
/-- V-MEM-7: the sum is exact. -/
theorem test_memory_port_sum_is_exact :
    (hostCall (.readMemory .word 0xFFFFFFFE) (machine 0 [] [])).2 =
      .fault (.outOfBounds .hostRead 0xFFFFFFFE 4) := by decide
/-- A byte written back to 0 leaves no entry, so the memories are the same data. -/
theorem test_memory_is_canonical : writeByte (writeByte [] 5 7) 5 0 = [] := by decide
/-- The host's table word runs as the first instruction after reset. -/
theorem test_withFetchWord_runs_the_word :
    step (State.reset.withFetchWord 32 0x00500013) =
      .next { State.reset.withFetchWord 32 0x00500013 with pc := 4 } := by rfl

/-! ## The toolchain (W7, W9, W10) -/

theorem test_assemble_addi :
    assembleText ⟨"addi", [.reg "x5", .reg "x0", .imm "10"]⟩ = .word 0x00A00293 := by decide
theorem test_assemble_sw :
    assembleText ⟨"sw", [.reg "x6", .memory "-4" "x10"]⟩ = .word 0xFE652E23 := by decide
theorem test_assemble_lui : assembleText ⟨"lui", [.reg "x5", .imm "0x12345"]⟩ = .word 0x123452B7 := by decide
/-- R100: bits outside the field are dropped, so 4095 encodes -1. -/
theorem test_assemble_truncates :
    assembleText ⟨"addi", [.reg "x1", .reg "x0", .imm "4095"]⟩ = .word 0xFFF00093 := by decide
/-- R99: one past the range, and a malformed token. -/
theorem test_assemble_token_refused :
    assembleText ⟨"addi", [.reg "x1", .reg "x0", .imm "4294967296"]⟩ = .word 0 ∧
    assembleText ⟨"addi", [.reg "x1", .reg "x0", .imm "1O"]⟩ = .word 0 := by decide
theorem test_assemble_unknown :
    assembleText ⟨"mul", [.reg "x1", .reg "x2", .reg "x3"]⟩ = .word 0 := by decide
theorem test_assemble_short : assembleText ⟨"addi", [.reg "x1", .reg "x2"]⟩ = .word 0 := by decide
theorem test_assemble_case :
    assembleText ⟨"add", [.reg "X1", .reg "x2", .reg "x3"]⟩ = .word 0 := by decide
theorem test_disassemble_bne :
    disassemble 0xFE209EE3 = some ⟨"bne", [.reg "ra", .reg "sp", .imm (-4)]⟩ := by decide
theorem test_disassemble_lui : disassemble 0x123452B7 = some ⟨"lui", [.reg "t0", .imm 0x12345]⟩ := by decide
theorem test_disassemble_length_bits : disassemble 0x00000001 = none := by decide

/-! ## Witnesses: what meets the hypotheses of each statement

A statement without hypotheses has none here. -/

/-- DecodeOfEncodeIsTheInstruction, at the ends of the offsets' ranges. -/
theorem witness_wellFormed :
    (Instr.beq 1 2 (-4096)).wellFormed = true ∧ (Instr.bgeu 31 0 4094).wellFormed = true ∧
    (Instr.jal 1 1048574).wellFormed = true ∧ (Instr.systemOther 0x1800045).wellFormed = true ∧
    (Instr.addi 5 6 (-2048)).wellFormed = true ∧ (Instr.fence 0).wellFormed = true := by decide
/-- EncodeOfDecodeIsTheWord. -/
theorem witness_decodes : ∃ i, decode 0x7FFFF0EF = .ok i := ⟨.jal 1 1048574, by decide⟩
/-- DecodeFollowsTheOpcodeTable: a row's word, and the two words that `system-other` gives way on. -/
theorem witness_row_matches :
    (∃ row ∈ opcodeTable, row.mnemonic = "sra" ∧ row.Matches 0x4020D1B3) ∧
    (∃ row ∈ opcodeTable, row.mnemonic = "system-other" ∧ row.Matches 0x00000073 ∧ row.Matches 0x00100073) := by
  decide
/-- InvalidEncodingsAreTheListedOnes: a word of each class of its list, and the valid words beside them. -/
theorem witness_invalid_classes :
    [0x0000000F, 0x000090E7, 0x00002063, 0x00003063, 0x00003003, 0x00007003, 0x00003023, 0x02001013].map
        decodeExecutable =
      List.replicate 8 (.error .unmapped) ∧
    [0x02005013, 0x02000033, 0x40001033, 0x40007033].map decodeExecutable =
      List.replicate 4 (.error .unmapped) ∧
    (decodeExecutable 0x40005013).isOk = true ∧ (decodeExecutable 0x40000033).isOk = true := by decide
/-- ImmediatesComeFromTheListedBits: a word of each format, with the values at the ends of the ranges. -/
theorem witness_immediates :
    (decode 0x80052283).map immediateOf = .ok (some 0xFFFFF800) ∧
    (decode 0x7E652FA3).map immediateOf = .ok (some 0x000007FF) ∧
    (decode 0x80208063).map immediateOf = .ok (some 0xFFFFF000) ∧
    (decode 0xFFFFF2B7).map immediateOf = .ok (some 0xFFFFF000) ∧
    (decode 0x41F35293).map immediateOf = .ok (some 31) ∧
    [Instr.lw 5 10 0, .sw 6 10 0, .beq 1 2 0, .lui 5 0, .srai 5 6 0].map formatOf =
      [.i, .s, .b, .u, .iShift] := by decide
/-- JumpImmediateComesFromTheListedBits, at both ends of the range. -/
theorem witness_jump_immediate :
    (decode 0x800000EF).map immediateOf = .ok (some 0xFFF00000) ∧
    (decode 0x7FFFF0EF).map immediateOf = .ok (some 0x000FFFFE) ∧ formatOf (.jal 1 0) = .j := by decide
/-- StepRunsTheDecodedInstruction, at the first and at the last word of memory. -/
theorem witness_fetchable :
    Fetchable (machine 0 [0x00500013] []) ∧ decode (wordAtPc (machine 0 [0x00500013] [])) = .ok (.addi 0 0 5) ∧
    Fetchable (machine 0x00FFFFFC [0x00500013] []) ∧
    decode (wordAtPc (machine 0x00FFFFFC [0x00500013] [])) = .ok (.addi 0 0 5) := by decide
/-- LengthBitsFault: a word with low bits 10, and the all-zero word. -/
theorem witness_length_bits :
    (wordAtPc (machine 0x100 [0xFFFFFFFE] [])).extractLsb' 0 2 ≠ 0b11#2 ∧
    Fetchable (machine 0x100 [0xFFFFFFFE] []) ∧ Fetchable (machine 0x100 [] []) ∧
    wordAtPc (machine 0x100 [] []) = 0 := by decide
/-- FirstFailingCheckDecides, the checks before decoding, at their boundaries: a misaligned pc, the first
aligned pc whose word is not in memory, a word with low bits not 11. -/
theorem witness_first_checks :
    (machine 0x01000002 [] []).pc.toNat % 4 ≠ 0 ∧
    (machine 0x01000000 [] []).pc.toNat % 4 = 0 ∧
    Config.standard.memSize < (machine 0x01000000 [] []).pc.toNat + 4 ∧
    Fetchable (machine 0x00FFFFFC [] []) ∧
    (wordAtPc (machine 0x00FFFFFC [] [])).extractLsb' 0 2 ≠ 0b11#2 := by decide
/-- FirstFailingCheckDecides, a word that is no executable instruction. -/
theorem witness_unmapped :
    let s := machine 0x100 [0x0FF0000F] []
    Fetchable s ∧ (wordAtPc s).extractLsb' 0 2 = 0b11#2 ∧ (∀ i, decodeExecutable (wordAtPc s) ≠ .ok i) := by
  refine ⟨by decide, by decide, fun i h => ?_⟩
  rw [show decodeExecutable (wordAtPc (machine 0x100 [0x0FF0000F] [])) = .error .unmapped by decide] at h
  cases h
/-- FirstFailingCheckDecides, StepFaultsOnlyForTheListedReasons: for each width the lowest address that faults. -/
theorem witness_load_out_of_bounds :
    let one := machine 0x100 [0x00054283] [(10, 0x01000000)]
    let two := machine 0x100 [0x00055283] [(10, 0x00FFFFFF)]
    let four := machine 0x100 [0x00052283] [(10, 0x00FFFFFD)]
    (Fetchable one ∧ decodeExecutable (wordAtPc one) = .ok (.lbu 5 10 0) ∧
      one.cfg.memSize < (effectiveAddress 10 0 one).toNat + 1) ∧
    (Fetchable two ∧ decodeExecutable (wordAtPc two) = .ok (.lhu 5 10 0) ∧
      two.cfg.memSize < (effectiveAddress 10 0 two).toNat + 2) ∧
    (Fetchable four ∧ decodeExecutable (wordAtPc four) = .ok (.lw 5 10 0) ∧
      four.cfg.memSize < (effectiveAddress 10 0 four).toNat + 4) := by decide
/-- FirstFailingCheckDecides, StepFaultsOnlyForTheListedReasons: for each width the lowest address that faults. -/
theorem witness_store_out_of_bounds :
    let one := machine 0x100 [0x00650023] [(10, 0x01000000)]
    let two := machine 0x100 [0x00651023] [(10, 0x00FFFFFF)]
    let four := machine 0x100 [0x00652023] [(10, 0x00FFFFFD)]
    (Fetchable one ∧ decodeExecutable (wordAtPc one) = .ok (.sb 6 10 0) ∧
      storeSpan (.sb 6 10 0) one = some (0x01000000, 1) ∧ one.cfg.memSize < 0x01000000 + 1) ∧
    (Fetchable two ∧ decodeExecutable (wordAtPc two) = .ok (.sh 6 10 0) ∧
      storeSpan (.sh 6 10 0) two = some (0x00FFFFFF, 2) ∧ two.cfg.memSize < 0x00FFFFFF + 2) ∧
    (Fetchable four ∧ decodeExecutable (wordAtPc four) = .ok (.sw 6 10 0) ∧
      storeSpan (.sw 6 10 0) four = some (0x00FFFFFD, 4) ∧ four.cfg.memSize < 0x00FFFFFD + 4) := by decide
/-- LoadsCompleteInBounds, StoresCompleteInBounds, LoadsOutOfBoundsFault, StoresOutOfBoundsFault: for each
width the highest address that completes and the lowest that faults, from a base at `MEM_SIZE`. -/
theorem witness_access_bounds :
    let ea := fun off : BitVec 12 =>
      (BitVec.ofInt 32 ((readX 10 (machine 0x100 [] [(10, 0x01000000)])).toInt + off.toInt)).toNat
    (ea (-1) + 1 = Config.standard.memSize ∧ Config.standard.memSize < ea 0 + 1) ∧
    (ea (-2) + 2 = Config.standard.memSize ∧ Config.standard.memSize < ea (-1) + 2) ∧
    (ea (-4) + 4 = Config.standard.memSize ∧ Config.standard.memSize < ea (-3) + 4) := by decide
/-- LoadAndStoreSpansAreBasePlusOffset: an instruction with no load span, and one with no store span. -/
theorem witness_no_access :
    (Instr.sw 6 10 0).mnemonic ∉ ["lb", "lh", "lw", "lbu", "lhu"] ∧
    (Instr.lw 5 10 0).mnemonic ∉ ["sb", "sh", "sw"] := by decide
/-- StepFaultsOnlyForTheListedReasons: a step with each of its faults. -/
theorem witness_step_faults :
    step (machine 0x102 [] []) = .fault (.misalignedFetch 0x102) ∧
    step (machine 0x100 [0x00000073] []) = .fault (.invalidEncoding .unmapped 0x00000073) ∧
    step (machine 0x100 [] []) = .fault (.invalidEncoding .lengthBits 0) ∧
    step (machine 0x01000000 [] []) = .fault (.outOfBounds .fetch 0x01000000 4) ∧
    step (machine 0x100 [0x00052283] [(10, 0x00FFFFFD)]) = .fault (.outOfBounds .load 0x00FFFFFD 4) ∧
    step (machine 0x100 [0x00651023] [(10, 0x00FFFFFF)]) = .fault (.outOfBounds .store 0x00FFFFFF 2) :=
  ⟨rfl, rfl, rfl, rfl, rfl, rfl⟩
/-- FaultLeavesTheLastCompletedState, FaultRepeatsUntilTheHostChangesTheState: a call that faults at its last
unit. -/
theorem witness_call_faults :
    ∃ t, stepCall 2 (machine 0 [0x00128293] []) = ⟨t, 1, .fault (.invalidEncoding .lengthBits 0)⟩ :=
  ⟨(stepCall 2 (machine 0 [0x00128293] [])).state, by decide⟩
/-- SplitBudgetIsOneBudget: a call that completes its budget. -/
theorem witness_call_completes : ∃ t, stepCall 1 (machine 0 [0x00128293] []) = ⟨t, 0, .ok⟩ :=
  ⟨(stepCall 1 (machine 0 [0x00128293] [])).state, by decide⟩
/-- PowerOnMeetsTheInvariant: the least and the greatest capacity. -/
theorem witness_legal_parameters :
    (Config.mk 4 1).Legal ∧ (Config.mk (2 ^ 32) 0xFFFFFFFF).Legal ∧ Config.standard.Legal := by decide
/-- EveryStepKeepsTheInvariant, EveryHostCallKeepsTheInvariant: a state that meets the invariant, with a
breakpoint and a byte at the end of memory, from which a store completes. -/
theorem witness_invariant :
    ∃ s t, s.Inv ∧ s.bkpts = [0x3FFFFF] ∧ step s = .next t := by
  refine ⟨setBreakpoint 0x00FFFFFF true (machine 0x00FFFFFC [0x00650023] [(6, 7), (10, 0x200)]), _, ?_, ?_, rfl⟩
  · exact ⟨by decide, by decide, by decide, by decide⟩
  · decide
/-- StepChangesOnlyWhatItsInstructionNames: a step that changes a register; one that changes both the first
and the last byte of its store, the pc by 4; and one that is a transfer. -/
theorem witness_frame :
    after 5 (machine 0x100 [0x123452B7] []) = some (0x12345000, 0x104) ∧
    bytesAfter 0x1FFC 4 (machine 0x100 [0xFE652E23] [(6, 0x11223344), (10, 0x2000)]) =
      some ([0x44, 0x33, 0x22, 0x11], 0x104) ∧
    after 1 (machine 0x20000 [0xFF9FF0EF] []) = some (0x20004, 0x1FFF8) := by decide
/-- BadTargetFaultsAtTheNextFetch: a jump to a misaligned target, one to the first aligned target beyond
memory, and a branch, each fetched and decoded. -/
theorem witness_bad_targets :
    let odd := machine 0x100 [0x002000EF] []
    let far := machine 0x100 [0x000080E7] [(1, 0x01000000)]
    let branch := machine 0x100 [0x00208363] []
    (Fetchable odd ∧ decode (wordAtPc odd) = .ok (.jal 1 2) ∧ (Instr.jal 1 2).isTransfer = true ∧
      after 1 odd = some (0x104, 0x102)) ∧
    (Fetchable far ∧ decode (wordAtPc far) = .ok (.jalr 1 1 0) ∧ (Instr.jalr 1 1 0).isTransfer = true ∧
      after 1 far = some (0x104, 0x01000000) ∧ Config.standard.memSize < 0x01000000 + 4) ∧
    (Fetchable branch ∧ decode (wordAtPc branch) = .ok (.beq 1 2 6) ∧
      (Instr.beq 1 2 6).isTransfer = true ∧ after 1 branch = some (0, 0x106)) := by decide
/-- RefusedRowsRaiseInvalidEncoding: a word of each of the two classes. -/
theorem witness_refused_words :
    Fetchable (machine 0x100 [0x0000100F] []) ∧
    (wordAtPc (machine 0x100 [0x0000100F] [])).extractLsb' 0 7 = 0b0001111#7 ∧
    Fetchable (machine 0x100 [0xC00022F3] []) ∧
    (wordAtPc (machine 0x100 [0xC00022F3] [])).extractLsb' 0 7 = 0b1110011#7 := by decide
/-- MemReadAndMemWriteAreLittleEndian, MemoryPorts: for each width the addresses either side of the bound. -/
theorem witness_bounds :
    ∀ w : Width, w = .byte ∨ w = .half ∨ w = .word → ∃ addr : Word,
      addr.toNat + w.bytes = Config.standard.memSize ∧
      Config.standard.memSize < (addr + 1).toNat + w.bytes := by
  rintro w (rfl | rfl | rfl)
  · exact ⟨0x00FFFFFF, by decide⟩
  · exact ⟨0x00FFFFFE, by decide⟩
  · exact ⟨0x00FFFFFC, by decide⟩
/-- ReadSeesTheLastWrite: a write that completes, and a span that touches it on neither side. -/
theorem witness_write :
    (∃ t, memWrite .store 0x2001 .half 0xABCD (machine 0x100 [] []) = .ok t) ∧
    (0x2000#32).toNat + Width.byte.bytes ≤ (0x2001#32).toNat ∧
    (0x2001#32).toNat + Width.half.bytes ≤ (0x2003#32).toNat := ⟨⟨_, rfl⟩, by decide, by decide⟩
/-- StoreToTheNextInstructionIsFetched. -/
theorem witness_store_to_next :
    let s := machine 0x100 [0x00652023] [(6, 0x00500013), (10, 0x104)]
    s.pc.toNat % 4 = 0 ∧ effectiveAddress 10 0 s = s.pc + 4 ∧ ∃ t, exec (.sw 6 10 0) s = .next t :=
  ⟨by decide, by decide, _, rfl⟩
/-- ResetWritesPoison. -/
theorem witness_reset_is_legal : State.reset.cfg.Legal := by decide
/-- The name strings of R23's table, `pc` once. -/
def namesOfR23 : List String :=
  ["x0", "x1", "x2", "x3", "x4", "x5", "x6", "x7", "x8", "x9", "x10", "x11", "x12", "x13", "x14", "x15"] ++
  ["x16", "x17", "x18", "x19", "x20", "x21", "x22", "x23", "x24", "x25", "x26", "x27", "x28", "x29"] ++
  ["x30", "x31", "pc", "zero", "ra", "sp", "gp", "tp", "t0", "t1", "t2", "s0", "s1", "a0", "a1", "a2"] ++
  ["a3", "a4", "a5", "a6", "a7", "s2", "s3", "s4", "s5", "s6", "s7", "s8", "s9", "s10", "s11"] ++
  ["t3", "t4", "t5", "t6"]
/-- RegisterNamesResolve: the first and the last index, names that resolve, and strings that are none. -/
theorem witness_names :
    registerIndex "zero" = some 0 ∧ registerIndex "pc" = some 32 ∧ registerIndex "t6" = some 31 ∧
    namesOfR23.length = 65 ∧ (∀ n ∈ namesOfR23, (registerIndex n).isSome = true) ∧
    (∀ n ∈ ["fp", "x32", "x05", "X5", "T0", "PC", ""], n ∉ namesOfR23 ∧ registerIndex n = none) := by decide
/-- BreakpointPortsReadBack: the last entry, and the first address beyond it. -/
theorem witness_breakpoint_range :
    (0x00FFFFFF#32).toNat < Config.standard.memSize ∧ (0x00FFFFFC#32).toNat / 4 = (0x00FFFFFF#32).toNat / 4 ∧
    Config.standard.memSize ≤ (0x01000000#32).toNat := by decide
/-- ImageLoadIsVerbatimOrRefused: an image that just fits, and one that does not. -/
theorem witness_image :
    (0x00FFFFFC#32).toNat + ([1, 2, 3, 4] : List Byte).length ≤ Config.standard.memSize ∧
    Config.standard.memSize < (0x00FFFFFD#32).toNat + ([1, 2, 3, 4] : List Byte).length := by decide
/-- BootedMachineRunsItsImage: an image of one instruction in the last word of memory. -/
theorem witness_boot :
    (0x00FFFFFC#32).toNat % 4 = 0 ∧
    (0x00FFFFFC#32).toNat + (4 + ([] : List Byte).length) ≤ Config.standard.memSize ∧
    (∀ p ∈ [((2 : Nat), (0x8000 : Word))], p.1 ≠ 32) ∧ (Instr.addi 5 0 10).wellFormed = true := by decide
/-- AssembleOfDisassembleIsTheWord: a word with a line, a text that reads as it, and a word with none. -/
theorem witness_disassembles :
    decodeExecutable 0xFE652E23 = .ok (.sw 6 10 (-4)) ∧
    disassemble 0xFE652E23 = some ⟨"sw", [.reg "t1", .memory (-4) "a0"]⟩ ∧
    readText ⟨"sw", [.reg "t1", .memory "-4" "a0"]⟩ = some ⟨"sw", [.reg "t1", .memory (-4) "a0"]⟩ ∧
    decodeExecutable 0x00000073 = .error .unmapped := by decide
/-- ImmediateTokensReadAsWritten: the ends of the ranges, and what lies past them. -/
theorem witness_tokens :
    (∀ d ∈ [15, 15, 15, 15, 15, 15, 15, 15], d < 16) ∧
    immediateToken "0xffffffff".toList = some 4294967295 ∧ immediateToken "0x0ffffffff".toList = none ∧
    immediateToken "4294967295".toList = some 4294967295 ∧ immediateToken "4294967296".toList = none ∧
    immediateToken "-2147483648".toList = some (-2147483648) ∧
    immediateToken "-2147483649".toList = none ∧ immediateToken "0x".toList = none ∧
    immediateToken "1-".toList = none ∧ immediateToken "0xg".toList = none ∧
    'g'.isDigit = false ∧ 'g' ∉ "abcdefABCDEF".toList := by decide
/-- ImmediateTokensReadAsWritten: a line with a token that reads as nothing. -/
theorem witness_malformed_line :
    AsmToken.imm "0x1FFFFFFFF" ∈ (AsmText.mk "addi" [.reg "x5", .reg "x0", .imm "0x1FFFFFFFF"]).operands ∧
    immediateToken "0x1FFFFFFFF".toList = none := by decide
/-- AssemblerOnlyMnemonicsAreNotDisassembled. -/
theorem witness_unknown_mnemonic : (shapeOf "mul" asmGrammar).isNone = true := by decide

end Sys2Proof.Tests
end

/-! PROOFS. Noninterference: what no step observes, no step depends on. The part of the state that a change
`f` touches is unobserved if `f` keeps all that an instruction reads and commutes with committing an effect;
then the step and the whole call commute with `f`. -/

namespace Sys2Proof.Machine

/-- `f` changes nothing that an instruction reads, and committing an effect (R122) commutes with it. -/
structure Unobserved (f : State → State) : Prop where
  x : ∀ s, (f s).x = s.x
  pc : ∀ s, (f s).pc = s.pc
  mem : ∀ s, (f s).mem = s.mem
  memSize : ∀ s, (f s).cfg.memSize = s.cfg.memSize
  commit : ∀ e s, commit e (f s) = f (commit e s)

namespace Unobserved

section
variable {f : State → State} (h : Unobserved f)
include h

/-! ## What an instruction reads -/

theorem readX_eq (r : Reg) (s : State) : readX r (f s) = readX r s := readX_congr (h.x s) r

theorem effectiveAddress_eq (rs1 : Reg) (imm : BitVec 12) (s : State) :
    effectiveAddress rs1 imm (f s) = effectiveAddress rs1 imm s := by
  simp only [effectiveAddress, h.readX_eq]

theorem branchTarget_eq (off : BitVec 13) (s : State) : branchTarget off (f s) = branchTarget off s := by
  simp only [branchTarget, h.pc]

theorem inBounds_iff (addr : Word) (w : Width) (s : State) : InBounds addr w (f s) ↔ InBounds addr w s := by
  simp only [InBounds, h.memSize]

theorem memRead_eq (access : Access) (addr : Word) (w : Width) (s : State) :
    memRead access addr w (f s) = memRead access addr w s := by
  simp only [memRead, h.inBounds_iff, h.mem]

theorem fetch_eq (s : State) : fetch (f s) = fetch s := by
  simp only [fetch, h.pc, h.memRead_eq]

/-! ## The shapes of meanings -/

theorem complete_eq (e : Effect) (s : State) : complete e (f s) = mapNext f (complete e s) :=
  congrArg Host.Outcome.next (h.commit e s)

theorem writeResult_eq (rd : Reg) (v : Word) (s : State) :
    writeResult rd v (f s) = mapNext f (writeResult rd v s) := h.complete_eq _ s

theorem jumpAndLink_eq (rd : Reg) (target : Word) (s : State) :
    jumpAndLink rd target (f s) = mapNext f (jumpAndLink rd target s) := by
  simp only [jumpAndLink, h.pc, h.complete_eq]

theorem branchIf_eq (taken : Bool) (target : Word) (s : State) :
    branchIf taken target (f s) = mapNext f (branchIf taken target s) := h.complete_eq _ s

theorem loadTo_eq (rd : Reg) (addr : Word) (w : Width) (extend : Word → Word) (s : State) :
    loadTo rd addr w extend (f s) = mapNext f (loadTo rd addr w extend s) := by
  simp only [loadTo, h.memRead_eq]
  cases memRead .load addr w s with
  | ok v => exact h.writeResult_eq rd _ s
  | error e => rfl

theorem storeTo_eq (addr : Word) (w : Width) (v : Word) (s : State) :
    storeTo addr w v (f s) = mapNext f (storeTo addr w v s) := by
  simp only [storeTo, h.inBounds_iff]
  split
  · exact h.complete_eq _ s
  · rfl

/-! ## Instruction, step and call -/

/-- Every row of the opcode table, by the shape of its meaning. -/
theorem exec_eq (i : Instr) (s : State) : exec i (f s) = mapNext f (exec i s) := by
  cases i with
  | lui | auipc => simp only [exec, execLui, execAuipc, h.pc, h.writeResult_eq]
  | jal | jalr =>
    simp only [exec, execJal, execJalr, jalTarget, jalrTarget, h.pc, h.readX_eq, h.jumpAndLink_eq]
  | beq | bne | blt | bge | bltu | bgeu =>
    simp only [exec, execBeq, execBne, execBlt, execBge, execBltu, execBgeu, h.readX_eq, h.branchTarget_eq,
      h.branchIf_eq]
  | lb | lh | lw | lbu | lhu =>
    simp only [exec, execLb, execLh, execLw, execLbu, execLhu, h.effectiveAddress_eq, h.loadTo_eq]
  | sb | sh | sw =>
    simp only [exec, execSb, execSh, execSw, h.effectiveAddress_eq, h.readX_eq, h.storeTo_eq]
  | addi | slti | sltiu | xori | ori | andi | slli | srli | srai =>
    simp only [exec, execAddi, execSlti, execSltiu, execXori, execOri, execAndi, execSlli, execSrli, execSrai,
      h.readX_eq, h.writeResult_eq]
  | add | sub | sll | slt | sltu | xor | srl | sra | or | and =>
    simp only [exec, execAdd, execSub, execSll, execSlt, execSltu, execXor, execSrl, execSra, execOr, execAnd,
      h.readX_eq, h.writeResult_eq]
  | fence | ecall | ebreak | systemOther => rfl

/-- The step commutes with an unobserved change: the same word is fetched, and its instruction does the
same. -/
theorem step_eq (s : State) : step (f s) = mapNext f (step s) := by
  simp only [step, h.fetch_eq]
  cases fetch s with
  | error e => rfl
  | ok w =>
    cases hd : decode w with
    | error reason => simp only [hd, mapNext]
    | ok i => simp only [hd, h.exec_eq]

/-- So does the whole call, with the same budget left and the same status. -/
theorem stepCall_eq (n : Nat) (s : State) :
    stepCall n (f s) = ⟨f (stepCall n s).state, (stepCall n s).remaining, (stepCall n s).status⟩ := by
  induction n generalizing s with
  | zero => rfl
  | succ n ih =>
    have hstep := h.step_eq s
    cases hs : step s with
    | next t => rw [stepCall_next (hstep.trans (by rw [hs]; rfl)), stepCall_next hs, ih]
    | fault e => rw [stepCall_fault (hstep.trans (by rw [hs]; rfl)), stepCall_fault hs]
    | refused r => rw [stepCall_refused (hstep.trans (by rw [hs]; rfl)), stepCall_refused hs]

end

end Unobserved

/-! ## The breakpoint table -/

theorem writeX_withBreakpoints (r : Reg) (v : Word) (l : List Nat) (s : State) :
    writeX r v (withBreakpoints l s) = withBreakpoints l (writeX r v s) := by
  unfold writeX; split <;> rfl

theorem commitReg_withBreakpoints (e : Effect) (l : List Nat) (s : State) :
    commitReg e (withBreakpoints l s) = withBreakpoints l (commitReg e s) := by
  unfold commitReg
  split
  · exact writeX_withBreakpoints _ _ l s
  · rfl

/-- No instruction reads the table, and none writes it (R31). -/
theorem unobserved_withBreakpoints (l : List Nat) : Unobserved (withBreakpoints l) where
  x _ := rfl
  pc _ := rfl
  mem _ := rfl
  memSize _ := rfl
  commit e s := by simp only [commit, commitReg_withBreakpoints]; rfl

/-- A call keeps the table: putting the table a state already has into it changes nothing, before the call
or after it. -/
theorem stepCall_bkpts (n : Nat) (s : State) : (stepCall n s).state.bkpts = s.bkpts := by
  have h := (unobserved_withBreakpoints s.bkpts).stepCall_eq n s
  exact congrArg (fun r => r.state.bkpts) h

/-- Settles O18: another breakpoint table is an unobserved change, with which the step and the call
commute. -/
theorem executionIgnoresBreakpoints : Obligations.ExecutionIgnoresBreakpoints := by
  unfold Obligations.ExecutionIgnoresBreakpoints
  intro s l n
  have h := unobserved_withBreakpoints l
  exact ⟨h.step_eq s, h.stepCall_eq n s, stepCall_bkpts n s⟩

end Sys2Proof.Machine

/-! PROOFS. Fetch and decode: which word a step reads at a fetchable pc, and what it does with a word that
decodes. -/

namespace Sys2Proof.Machine

/-- Where the pc is aligned and in bounds, the fetch answers the little-endian word there (R56). -/
theorem fetch_of_fetchable {s : State} (h : Fetchable s) : fetch s = .ok (wordAtPc s) := by
  obtain ⟨halign, hbound⟩ := h
  rcases fetch_cases s with ⟨hmis, -⟩ | ⟨-, hout, -⟩ | ⟨-, -, hfetch⟩
  · exact absurd halign hmis
  · exact absurd hbound hout
  · rw [hfetch, wordOfBytes_four]; rfl

/-- A step whose word is fetched and decodes is the decoded instruction's meaning (R121). -/
theorem step_of_decode {s : State} {w : Word} {i : Instr} (hf : fetch s = .ok w) (hd : decode w = .ok i) :
    step s = exec i s := by
  simp only [step, hf, hd]

/-- Settles O8: the fetch answers the word at the pc, and the step runs what that word decodes to. -/
theorem stepRunsTheDecodedInstruction : Obligations.StepRunsTheDecodedInstruction := by
  unfold Obligations.StepRunsTheDecodedInstruction
  intro s i h hd
  have hf := fetch_of_fetchable h
  exact ⟨hf, step_of_decode hf hd⟩

end Sys2Proof.Machine

/-! PROOFS. Words the decoder refuses: what a step does with one, and the length bits (R81). -/

namespace Sys2Proof.Machine

/-- The length bits are the decoder's first check: whatever the other thirty bits are, low bits that are not
11 make it refuse the word (R81, R93). -/
theorem decode_of_lowBits_ne {w : Word} (h : w.extractLsb' 0 2 ≠ 0b11#2) : decode w = .error .lengthBits :=
  if_pos h

/-- A step whose word is fetched and refused by the decoder faults with that word and the decoder's reason
(R121, R242). -/
theorem step_of_decode_error {s : State} {w : Word} {reason : InvalidReason} (hf : fetch s = .ok w)
    (hd : decode w = .error reason) : step s = .fault (.invalidEncoding reason w) := by
  simp only [step, hf, hd]

/-- A step that reaches a word whose low bits are not 11 faults with it (R81). -/
theorem step_of_lowBits_ne {s : State} (hf : Fetchable s) (h : (wordAtPc s).extractLsb' 0 2 ≠ 0b11#2) :
    step s = .fault (.invalidEncoding .lengthBits (wordAtPc s)) :=
  step_of_decode_error (fetch_of_fetchable hf) (decode_of_lowBits_ne h)

/-- Settles O9: the fetched word is refused for its length bits, and the low bits of the all-zero word are
00. -/
theorem lengthBitsFault : Obligations.LengthBitsFault := by
  unfold Obligations.LengthBitsFault
  intro s hf
  refine ⟨step_of_lowBits_ne hf, fun hzero => ?_⟩
  have hlow : (wordAtPc s).extractLsb' 0 2 ≠ 0b11#2 := by rw [hzero]; decide
  have hstep := step_of_lowBits_ne hf hlow
  rwa [hzero] at hstep

end Sys2Proof.Machine

/-! PROOFS. The Step call: the call of budget 0, and what a call that ends with a fault has done (R121,
R123, R126). -/

namespace Sys2Proof.Machine

/-- Settles O15: with budget 0 no turn of the loop is run, through the call and through its host port. -/
theorem stepOfZeroDoesNothing : Obligations.StepOfZeroDoesNothing := by
  unfold Obligations.StepOfZeroDoesNothing
  intro s
  have hport : hostCall (.step 0) s = (s, .stepped 0 .ok) := by simp only [hostCall, stepCall_zero]
  exact ⟨stepCall_zero s, hport⟩

/-- A call that ends with a fault splits its budget into the `k` units completed and the `r` units left, of
which the first is the faulting instruction's: the call of budget `k` completes in the reported state, and
the step from that state faults. -/
theorem exists_completed_of_stepCall_fault {n r : Nat} {s t : State} {f : Fault}
    (h : stepCall n s = ⟨t, r, .fault f⟩) :
    ∃ k, n = k + r ∧ 1 ≤ r ∧ stepCall k s = ⟨t, 0, .ok⟩ ∧ step t = .fault f := by
  induction n generalizing s with
  | zero => simp [stepCall_zero] at h
  | succ n ih =>
    cases hs : step s with
    | next u =>
      rw [stepCall_next hs] at h
      obtain ⟨k, hn, hr, hcall, hfault⟩ := ih h
      exact ⟨k + 1, by omega, hr, (stepCall_next hs k).trans hcall, hfault⟩
    | fault e =>
      rw [stepCall_fault hs] at h
      cases h
      exact ⟨0, by omega, by omega, stepCall_zero _, hs⟩
    | refused e => simp [stepCall_refused hs] at h

/-- Settles O12: of the split budget, `n - r` is the completed part. -/
theorem faultLeavesTheLastCompletedState : Obligations.FaultLeavesTheLastCompletedState := by
  unfold Obligations.FaultLeavesTheLastCompletedState
  intro n r s t f h
  obtain ⟨k, rfl, hr, hcall, hfault⟩ := exists_completed_of_stepCall_fault h
  exact ⟨hr, by omega, by rwa [Nat.add_sub_cancel], hfault⟩

end Sys2Proof.Machine

/-! PROOFS. The decoder and the encoder (R82 to R93): each class of words by its opcode, reassembling a word
from its fields, and the two round trips. -/

namespace Sys2Proof

/-! ## Each class by its opcode (R91, R93) -/

section
variable {w : Word}

theorem decode_of_lui (h : fieldOpcode w = 0b0110111#7) :
    decode w = .ok (.lui (fieldRd w) (fieldImmU w)) := by
  simp only [decode, lowBits_eq, fieldMajor_eq, h]; rfl

theorem decode_of_auipc (h : fieldOpcode w = 0b0010111#7) :
    decode w = .ok (.auipc (fieldRd w) (fieldImmU w)) := by
  simp only [decode, lowBits_eq, fieldMajor_eq, h]; rfl

theorem decode_of_jal (h : fieldOpcode w = 0b1101111#7) :
    decode w = .ok (.jal (fieldRd w) (fieldImmJ w)) := by
  simp only [decode, lowBits_eq, fieldMajor_eq, h]; rfl

theorem decode_of_jalr (h : fieldOpcode w = 0b1100111#7) : decode w = decodeJalr w := by
  simp only [decode, lowBits_eq, fieldMajor_eq, h]; rfl

theorem decode_of_branch (h : fieldOpcode w = 0b1100011#7) : decode w = decodeBranch w := by
  simp only [decode, lowBits_eq, fieldMajor_eq, h]; rfl

theorem decode_of_load (h : fieldOpcode w = 0b0000011#7) : decode w = decodeLoad w := by
  simp only [decode, lowBits_eq, fieldMajor_eq, h]; rfl

theorem decode_of_store (h : fieldOpcode w = 0b0100011#7) : decode w = decodeStore w := by
  simp only [decode, lowBits_eq, fieldMajor_eq, h]; rfl

theorem decode_of_opImm (h : fieldOpcode w = 0b0010011#7) : decode w = decodeOpImm w := by
  simp only [decode, lowBits_eq, fieldMajor_eq, h]; rfl

theorem decode_of_op (h : fieldOpcode w = 0b0110011#7) : decode w = decodeOp w := by
  simp only [decode, lowBits_eq, fieldMajor_eq, h]; rfl

theorem decode_of_miscMem (h : fieldOpcode w = 0b0001111#7) :
    decode w = .ok (.fence (fieldAboveOpcode w)) := by
  simp only [decode, lowBits_eq, fieldMajor_eq, h]; rfl

theorem decode_of_system (h : fieldOpcode w = 0b1110011#7) : decode w = .ok (decodeSystem w) := by
  simp only [decode, lowBits_eq, fieldMajor_eq, h]; rfl

/-- The low two bits and the major class are the whole opcode (R82, R83). -/
theorem fieldOpcode_of_parts {major : BitVec 5} (hlow : w.extractLsb' 0 2 = 0b11#2)
    (hmajor : fieldMajor w = major) : fieldOpcode w = major ++ 0b11#2 := by
  rw [← hlow, ← hmajor]
  refine BitVec.eq_of_getLsbD_eq fun i hi => ?_
  simp only [fieldMajor, fieldOpcode, BitVec.getLsbD_append, BitVec.getLsbD_extractLsb']
  interval_cases i <;> simp

/-! ## A word is its fields (R84) -/

theorem regBits_fieldRd : regBits (fieldRd w) = w.extractLsb' 7 5 := rfl
theorem regBits_fieldRs1 : regBits (fieldRs1 w) = w.extractLsb' 15 5 := rfl
theorem regBits_fieldRs2 : regBits (fieldRs2 w) = w.extractLsb' 20 5 := rfl

section
variable {opcode : BitVec 7} {funct3 : BitVec 3} {funct7 : BitVec 7} (hop : fieldOpcode w = opcode)
include hop

theorem encodeU_fields : encodeU (fieldImmU w) (fieldRd w) opcode = w := by
  subst hop
  refine BitVec.eq_of_getLsbD_eq fun i hi => ?_
  simp only [encodeU, regBits_fieldRd, fieldImmU, fieldOpcode, BitVec.getLsbD_append,
    BitVec.getLsbD_extractLsb']
  interval_cases i <;> simp

theorem encodeJ_fields : encodeJ (fieldImmJ w) (fieldRd w) opcode = w := by
  subst hop
  refine BitVec.eq_of_getLsbD_eq fun i hi => ?_
  simp only [encodeJ, regBits_fieldRd, fieldImmJ, fieldOpcode, BitVec.getLsbD_append,
    BitVec.getLsbD_extractLsb']
  interval_cases i <;> simp

theorem encodeRefused_fields {fields : BitVec 25} (hfields : fieldAboveOpcode w = fields) :
    encodeRefused fields opcode = w := by
  subst hop hfields
  refine BitVec.eq_of_getLsbD_eq fun i hi => ?_
  simp only [encodeRefused, fieldAboveOpcode, fieldOpcode, BitVec.getLsbD_append, BitVec.getLsbD_extractLsb']
  interval_cases i <;> simp

section
variable (hf3 : fieldFunct3 w = funct3)
include hf3

theorem encodeI_fields : encodeI (fieldImmI w) (fieldRs1 w) funct3 (fieldRd w) opcode = w := by
  subst hop hf3
  refine BitVec.eq_of_getLsbD_eq fun i hi => ?_
  simp only [encodeI, regBits_fieldRd, regBits_fieldRs1, fieldImmI, fieldFunct3, fieldOpcode,
    BitVec.getLsbD_append, BitVec.getLsbD_extractLsb']
  interval_cases i <;> simp

theorem encodeS_fields : encodeS (fieldImmS w) (fieldRs2 w) (fieldRs1 w) funct3 opcode = w := by
  subst hop hf3
  refine BitVec.eq_of_getLsbD_eq fun i hi => ?_
  simp only [encodeS, regBits_fieldRs1, regBits_fieldRs2, fieldImmS, fieldFunct3, fieldOpcode,
    BitVec.getLsbD_append, BitVec.getLsbD_extractLsb']
  interval_cases i <;> simp

theorem encodeB_fields : encodeB (fieldImmB w) (fieldRs2 w) (fieldRs1 w) funct3 opcode = w := by
  subst hop hf3
  refine BitVec.eq_of_getLsbD_eq fun i hi => ?_
  simp only [encodeB, regBits_fieldRs1, regBits_fieldRs2, fieldImmB, fieldFunct3, fieldOpcode,
    BitVec.getLsbD_append, BitVec.getLsbD_extractLsb']
  interval_cases i <;> simp

theorem encodeShift_fields (hf7 : fieldFunct7 w = funct7) :
    encodeShift funct7 (fieldShamt w) (fieldRs1 w) funct3 (fieldRd w) opcode = w := by
  subst hop hf3 hf7
  refine BitVec.eq_of_getLsbD_eq fun i hi => ?_
  simp only [encodeShift, regBits_fieldRd, regBits_fieldRs1, fieldShamt, fieldFunct3, fieldFunct7,
    fieldOpcode, BitVec.getLsbD_append, BitVec.getLsbD_extractLsb']
  interval_cases i <;> simp

/-- The R layout is the I-shift layout with `rs2` in the place of the shift amount. -/
theorem encodeR_fields (hf7 : fieldFunct7 w = funct7) :
    encodeR funct7 (fieldRs2 w) (fieldRs1 w) funct3 (fieldRd w) opcode = w :=
  encodeShift_fields hop hf3 hf7

end

end

theorem evenOffset_fieldImmB : evenOffset (fieldImmB w) = true := by
  simp only [evenOffset, fieldImmB, BitVec.getLsbD_append]; rfl

theorem evenOffset_fieldImmJ : evenOffset (fieldImmJ w) = true := by
  simp only [evenOffset, fieldImmJ, BitVec.getLsbD_append]; rfl

/-! ## What a class decodes to, encoded again -/

/-- A well-formed instruction and its word. -/
def IsWordOf (w : Word) (i : Instr) : Prop := i.wellFormed = true ∧ encode i = w

section
variable {i : Instr}

theorem isWordOf_of_decodeJalr (hop : fieldOpcode w = 0b1100111#7) (h : decodeJalr w = .ok i) :
    IsWordOf w i := by
  unfold decodeJalr at h
  split at h <;> cases h
  next hf3 => exact ⟨rfl, encodeI_fields hop hf3⟩

theorem isWordOf_of_decodeBranch (hop : fieldOpcode w = 0b1100011#7) (h : decodeBranch w = .ok i) :
    IsWordOf w i := by
  unfold decodeBranch at h
  split at h <;> cases h
  all_goals next hf3 => exact ⟨evenOffset_fieldImmB, encodeB_fields hop hf3⟩

theorem isWordOf_of_decodeLoad (hop : fieldOpcode w = 0b0000011#7) (h : decodeLoad w = .ok i) :
    IsWordOf w i := by
  unfold decodeLoad at h
  split at h <;> cases h
  all_goals next hf3 => exact ⟨rfl, encodeI_fields hop hf3⟩

theorem isWordOf_of_decodeStore (hop : fieldOpcode w = 0b0100011#7) (h : decodeStore w = .ok i) :
    IsWordOf w i := by
  unfold decodeStore at h
  split at h <;> cases h
  all_goals next hf3 => exact ⟨rfl, encodeS_fields hop hf3⟩

theorem isWordOf_of_decodeShiftLeftImm (hop : fieldOpcode w = 0b0010011#7) (hf3 : fieldFunct3 w = 0b001#3)
    (h : decodeShiftLeftImm w = .ok i) : IsWordOf w i := by
  unfold decodeShiftLeftImm at h
  split at h <;> cases h
  next hf7 => exact ⟨rfl, encodeShift_fields hop hf3 hf7⟩

theorem isWordOf_of_decodeShiftRightImm (hop : fieldOpcode w = 0b0010011#7) (hf3 : fieldFunct3 w = 0b101#3)
    (h : decodeShiftRightImm w = .ok i) : IsWordOf w i := by
  unfold decodeShiftRightImm at h
  split at h <;> cases h
  all_goals next hf7 => exact ⟨rfl, encodeShift_fields hop hf3 hf7⟩

theorem isWordOf_of_decodeOpImm (hop : fieldOpcode w = 0b0010011#7) (h : decodeOpImm w = .ok i) :
    IsWordOf w i := by
  unfold decodeOpImm at h
  split at h
  case h_2 hf3 => exact isWordOf_of_decodeShiftLeftImm hop hf3 h
  case h_6 hf3 => exact isWordOf_of_decodeShiftRightImm hop hf3 h
  all_goals next hf3 => cases h; exact ⟨rfl, encodeI_fields hop hf3⟩

theorem isWordOf_of_decodeOpPlain (hop : fieldOpcode w = 0b0110011#7) (hf7 : fieldFunct7 w = 0b0000000#7)
    (h : decodeOpPlain w = .ok i) : IsWordOf w i := by
  unfold decodeOpPlain at h
  split at h <;> cases h
  all_goals next hf3 => exact ⟨rfl, encodeR_fields hop hf3 hf7⟩

theorem isWordOf_of_decodeOpAlternate (hop : fieldOpcode w = 0b0110011#7)
    (hf7 : fieldFunct7 w = 0b0100000#7) (h : decodeOpAlternate w = .ok i) : IsWordOf w i := by
  unfold decodeOpAlternate at h
  split at h <;> cases h
  all_goals next hf3 => exact ⟨rfl, encodeR_fields hop hf3 hf7⟩

theorem isWordOf_of_decodeOp (hop : fieldOpcode w = 0b0110011#7) (h : decodeOp w = .ok i) :
    IsWordOf w i := by
  unfold decodeOp at h
  split at h
  next hf7 => exact isWordOf_of_decodeOpPlain hop hf7 h
  next hf7 => exact isWordOf_of_decodeOpAlternate hop hf7 h
  next => cases h

theorem isWordOf_decodeSystem (hop : fieldOpcode w = 0b1110011#7) : IsWordOf w (decodeSystem w) := by
  unfold decodeSystem
  split
  next hcall => exact ⟨rfl, encodeRefused_fields hop hcall⟩
  next hcall =>
    split
    next hbreak => exact ⟨rfl, encodeRefused_fields hop hbreak⟩
    next hbreak =>
      refine ⟨?_, encodeRefused_fields hop rfl⟩
      simp only [Instr.wellFormed, bne_iff_ne, ne_eq, Bool.and_eq_true, hcall, hbreak, not_false_eq_true,
        and_self]

/-- Every word that decodes, class by class, is the word of the instruction it decodes to. -/
theorem isWordOf_of_decode (h : decode w = .ok i) : IsWordOf w i := by
  unfold decode at h
  split at h
  · cases h
  next hlow =>
    have parts {major} := fieldOpcode_of_parts (major := major) (not_not.1 hlow)
    split at h
    case h_1 hm => cases h; exact ⟨rfl, encodeU_fields (parts hm)⟩
    case h_2 hm => cases h; exact ⟨rfl, encodeU_fields (parts hm)⟩
    case h_3 hm => cases h; exact ⟨evenOffset_fieldImmJ, encodeJ_fields (parts hm)⟩
    case h_4 hm => exact isWordOf_of_decodeJalr (parts hm) h
    case h_5 hm => exact isWordOf_of_decodeBranch (parts hm) h
    case h_6 hm => exact isWordOf_of_decodeLoad (parts hm) h
    case h_7 hm => exact isWordOf_of_decodeStore (parts hm) h
    case h_8 hm => exact isWordOf_of_decodeOpImm (parts hm) h
    case h_9 hm => exact isWordOf_of_decodeOp (parts hm) h
    case h_10 hm => cases h; exact ⟨rfl, encodeRefused_fields (parts hm) rfl⟩
    case h_11 hm => cases h; exact isWordOf_decodeSystem (parts hm)
    case h_12 => cases h

end

end

/-- Settles O2, class by class: in every arm of the decoder the fields it reads are those the encoder
writes. -/
theorem encodeOfDecodeIsTheWord : Obligations.EncodeOfDecodeIsTheWord := by
  unfold Obligations.EncodeOfDecodeIsTheWord
  exact fun w i h => isWordOf_of_decode h

/-! ## Decoding what was encoded -/

/-- The decoder on the word of a well-formed instruction, by the layout of its row. -/
theorem decode_encode {i : Instr} (h : i.wellFormed = true) : decode (encode i) = .ok i := by
  cases i with
  | lui | auipc =>
    simp only [encode, decode, lowBits_eq, fieldMajor_eq, fieldOpcode_encodeU, fieldRd_encodeU,
      fieldImmU_encodeU]
    rfl
  | jal rd off =>
    refine (decode_of_jal (fieldOpcode_encodeJ ..)).trans ?_
    rw [fieldRd_encodeJ, fieldImmJ_encodeJ _ _ _ h]
  | jalr =>
    refine (decode_of_jalr (fieldOpcode_encodeI ..)).trans ?_
    simp only [decodeJalr, fieldFunct3_encodeI, fieldRd_encodeI, fieldRs1_encodeI, fieldImmI_encodeI,
      BitVec.ofNat_eq_ofNat]
  | beq | bne | blt | bge | bltu | bgeu =>
    refine (decode_of_branch (fieldOpcode_encodeB ..)).trans ?_
    simp only [decodeBranch, fieldFunct3_encodeB, fieldRs1_encodeB, fieldRs2_encodeB,
      fieldImmB_encodeB _ _ _ _ _ h, BitVec.ofNat_eq_ofNat]
  | lb | lh | lw | lbu | lhu =>
    refine (decode_of_load (fieldOpcode_encodeI ..)).trans ?_
    simp only [decodeLoad, fieldFunct3_encodeI, fieldRd_encodeI, fieldRs1_encodeI, fieldImmI_encodeI,
      BitVec.ofNat_eq_ofNat]
  | sb | sh | sw =>
    refine (decode_of_store (fieldOpcode_encodeS ..)).trans ?_
    simp only [decodeStore, fieldFunct3_encodeS, fieldRs2_encodeS, fieldRs1_encodeS, fieldImmS_encodeS,
      BitVec.ofNat_eq_ofNat]
  | addi | slti | sltiu | xori | ori | andi =>
    refine (decode_of_opImm (fieldOpcode_encodeI ..)).trans ?_
    simp only [decodeOpImm, fieldFunct3_encodeI, fieldRd_encodeI, fieldRs1_encodeI, fieldImmI_encodeI,
      BitVec.ofNat_eq_ofNat]
  | slli | srli | srai =>
    refine (decode_of_opImm (fieldOpcode_encodeShift ..)).trans ?_
    simp only [decodeOpImm, decodeShiftLeftImm, decodeShiftRightImm, fieldFunct3_encodeShift,
      fieldFunct7_encodeShift, fieldRd_encodeShift, fieldRs1_encodeShift, fieldShamt_encodeShift,
      BitVec.ofNat_eq_ofNat]
  | add | sub | sll | slt | sltu | xor | srl | sra | or | and =>
    refine (decode_of_op (fieldOpcode_encodeR ..)).trans ?_
    simp only [decodeOp, decodeOpPlain, decodeOpAlternate, fieldFunct3_encodeR, fieldFunct7_encodeR,
      fieldRd_encodeR, fieldRs1_encodeR, fieldRs2_encodeR, BitVec.ofNat_eq_ofNat]
  | fence fields =>
    refine (decode_of_miscMem (fieldOpcode_encodeRefused ..)).trans ?_
    rw [fieldAboveOpcode_encodeRefused]
  | ecall | ebreak =>
    refine (decode_of_system (fieldOpcode_encodeRefused ..)).trans ?_
    rw [decodeSystem, fieldAboveOpcode_encodeRefused]
    rfl
  | systemOther fields =>
    simp only [Instr.wellFormed, Bool.and_eq_true, bne_iff_ne] at h
    obtain ⟨hcall, hbreak⟩ := h
    refine (decode_of_system (fieldOpcode_encodeRefused ..)).trans ?_
    rw [decodeSystem, fieldAboveOpcode_encodeRefused, if_neg hcall, if_neg hbreak]

/-- Decoding four bytes and more is decoding the word of the first four (R56, R80). -/
theorem decodeBytes_bytesOfWord {w : Word} {i : Instr} (h : decode w = .ok i) (rest : List Byte) :
    decodeBytes (bytesOfWord 4 w ++ rest) = .ok (i, rest) := by
  rw [← Machine.wordOfBytes_bytesOfWord w] at h
  simp only [bytesOfWord] at h
  simp only [bytesOfWord, List.cons_append, List.nil_append, decodeBytes, h]

/-- Settles O1, row by row: the fields the encoder writes are those the decoder reads, and the bytes of the
word are the first four. -/
theorem decodeOfEncodeIsTheInstruction : Obligations.DecodeOfEncodeIsTheInstruction := by
  unfold Obligations.DecodeOfEncodeIsTheInstruction
  intro i rest h
  exact ⟨decode_encode h, decodeBytes_bytesOfWord (decode_encode h) rest⟩

end Sys2Proof

/-! PROOFS. The decoder against the opcode table: every decoded word has its row's fixed bits, and every word
with a row's fixed bits decodes to that row's instruction (R91, R92). -/

namespace Sys2Proof

/-- A word is the word of a well-formed instruction exactly if it decodes to it: both round trips at once. -/
theorem decode_eq_ok_iff {w : Word} {i : Instr} : decode w = .ok i ↔ IsWordOf w i := by
  refine ⟨isWordOf_of_decode, ?_⟩
  rintro ⟨hwf, rfl⟩
  exact decode_encode hwf

/-- The word of every instruction has the fixed bits of its row. -/
theorem encode_matches (i : Instr) : Laws.FixedBits.Statement i := by
  open Laws.FixedBits in
  cases i with
  | lui => exact lui ..
  | auipc => exact auipc ..
  | jal => exact jal ..
  | jalr => exact jalr ..
  | beq => exact beq ..
  | bne => exact bne ..
  | blt => exact blt ..
  | bge => exact bge ..
  | bltu => exact bltu ..
  | bgeu => exact bgeu ..
  | lb => exact lb ..
  | lh => exact lh ..
  | lw => exact lw ..
  | lbu => exact lbu ..
  | lhu => exact lhu ..
  | sb => exact sb ..
  | sh => exact sh ..
  | sw => exact sw ..
  | addi => exact addi ..
  | slti => exact slti ..
  | sltiu => exact sltiu ..
  | xori => exact xori ..
  | ori => exact ori ..
  | andi => exact andi ..
  | slli => exact slli ..
  | srli => exact srli ..
  | srai => exact srai ..
  | add => exact add ..
  | sub => exact sub ..
  | sll => exact sll ..
  | slt => exact slt ..
  | sltu => exact sltu ..
  | xor => exact xor ..
  | srl => exact srl ..
  | sra => exact sra ..
  | or => exact or ..
  | and => exact and ..
  | fence => exact fence ..
  | ecall => exact ecall
  | ebreak => exact ebreak
  | systemOther => exact systemOther ..

/-! ## Fields under a mask -/

section
variable {w m p : Word} (h : w &&& m = p)
include h

/-- A field all of whose bits the mask keeps is the pattern's. -/
theorem extractLsb'_eq_of_and {start len : Nat} (hm : m.extractLsb' start len = BitVec.allOnes len) :
    w.extractLsb' start len = p.extractLsb' start len := by
  rw [← h, BitVec.extractLsb'_and, hm, BitVec.and_allOnes]

theorem fieldOpcode_eq_of_and (hm : fieldOpcode m = BitVec.allOnes 7) : fieldOpcode w = fieldOpcode p :=
  extractLsb'_eq_of_and h hm

theorem fieldFunct3_eq_of_and (hm : fieldFunct3 m = BitVec.allOnes 3) : fieldFunct3 w = fieldFunct3 p :=
  extractLsb'_eq_of_and h hm

theorem fieldFunct7_eq_of_and (hm : fieldFunct7 m = BitVec.allOnes 7) : fieldFunct7 w = fieldFunct7 p :=
  extractLsb'_eq_of_and h hm

end

/-! ## A row's words, by the row's layout -/

/-- Every word with the row's fixed bits is the word of a well-formed instruction of the row. -/
def RowDecodes (row : TableRow) : Prop :=
  ∀ w, row.Matches w → ∃ i, IsWordOf w i ∧ i.mnemonic = row.mnemonic

section
variable {name : String} {p : Word}

theorem rowDecodes_U (mk : Reg → BitVec 20 → Instr)
    (hmk : ∀ rd imm, IsWordOf (encodeU imm rd (fieldOpcode p)) (mk rd imm) ∧ (mk rd imm).mnemonic = name) :
    RowDecodes ⟨name, p, 0x0000007F⟩ := by
  intro w (h : w &&& 0x0000007F = p)
  have hop : fieldOpcode w = fieldOpcode p := fieldOpcode_eq_of_and h (by decide)
  have hword := hmk (fieldRd w) (fieldImmU w)
  rw [encodeU_fields hop] at hword
  exact ⟨_, hword⟩

theorem rowDecodes_J (mk : Reg → BitVec 21 → Instr)
    (hmk : ∀ rd off, evenOffset off = true →
      IsWordOf (encodeJ off rd (fieldOpcode p)) (mk rd off) ∧ (mk rd off).mnemonic = name) :
    RowDecodes ⟨name, p, 0x0000007F⟩ := by
  intro w (h : w &&& 0x0000007F = p)
  have hop : fieldOpcode w = fieldOpcode p := fieldOpcode_eq_of_and h (by decide)
  have hword := hmk (fieldRd w) (fieldImmJ w) evenOffset_fieldImmJ
  rw [encodeJ_fields hop] at hword
  exact ⟨_, hword⟩

theorem rowDecodes_I (mk : Reg → Reg → BitVec 12 → Instr)
    (hmk : ∀ rd rs1 imm, IsWordOf (encodeI imm rs1 (fieldFunct3 p) rd (fieldOpcode p)) (mk rd rs1 imm) ∧
      (mk rd rs1 imm).mnemonic = name) :
    RowDecodes ⟨name, p, 0x0000707F⟩ := by
  intro w (h : w &&& 0x0000707F = p)
  have hop : fieldOpcode w = fieldOpcode p := fieldOpcode_eq_of_and h (by decide)
  have hf3 : fieldFunct3 w = fieldFunct3 p := fieldFunct3_eq_of_and h (by decide)
  have hword := hmk (fieldRd w) (fieldRs1 w) (fieldImmI w)
  rw [encodeI_fields hop hf3] at hword
  exact ⟨_, hword⟩

theorem rowDecodes_S (mk : Reg → Reg → BitVec 12 → Instr)
    (hmk : ∀ rs2 rs1 imm, IsWordOf (encodeS imm rs2 rs1 (fieldFunct3 p) (fieldOpcode p)) (mk rs2 rs1 imm) ∧
      (mk rs2 rs1 imm).mnemonic = name) :
    RowDecodes ⟨name, p, 0x0000707F⟩ := by
  intro w (h : w &&& 0x0000707F = p)
  have hop : fieldOpcode w = fieldOpcode p := fieldOpcode_eq_of_and h (by decide)
  have hf3 : fieldFunct3 w = fieldFunct3 p := fieldFunct3_eq_of_and h (by decide)
  have hword := hmk (fieldRs2 w) (fieldRs1 w) (fieldImmS w)
  rw [encodeS_fields hop hf3] at hword
  exact ⟨_, hword⟩

theorem rowDecodes_B (mk : Reg → Reg → BitVec 13 → Instr)
    (hmk : ∀ rs1 rs2 off, evenOffset off = true →
      IsWordOf (encodeB off rs2 rs1 (fieldFunct3 p) (fieldOpcode p)) (mk rs1 rs2 off) ∧
      (mk rs1 rs2 off).mnemonic = name) :
    RowDecodes ⟨name, p, 0x0000707F⟩ := by
  intro w (h : w &&& 0x0000707F = p)
  have hop : fieldOpcode w = fieldOpcode p := fieldOpcode_eq_of_and h (by decide)
  have hf3 : fieldFunct3 w = fieldFunct3 p := fieldFunct3_eq_of_and h (by decide)
  have hword := hmk (fieldRs1 w) (fieldRs2 w) (fieldImmB w) evenOffset_fieldImmB
  rw [encodeB_fields hop hf3] at hword
  exact ⟨_, hword⟩

theorem rowDecodes_shift (mk : Reg → Reg → BitVec 5 → Instr)
    (hmk : ∀ rd rs1 shamt,
      IsWordOf (encodeShift (fieldFunct7 p) shamt rs1 (fieldFunct3 p) rd (fieldOpcode p)) (mk rd rs1 shamt) ∧
      (mk rd rs1 shamt).mnemonic = name) :
    RowDecodes ⟨name, p, 0xFE00707F⟩ := by
  intro w (h : w &&& 0xFE00707F = p)
  have hop : fieldOpcode w = fieldOpcode p := fieldOpcode_eq_of_and h (by decide)
  have hf3 : fieldFunct3 w = fieldFunct3 p := fieldFunct3_eq_of_and h (by decide)
  have hf7 : fieldFunct7 w = fieldFunct7 p := fieldFunct7_eq_of_and h (by decide)
  have hword := hmk (fieldRd w) (fieldRs1 w) (fieldShamt w)
  rw [encodeShift_fields hop hf3 hf7] at hword
  exact ⟨_, hword⟩

theorem rowDecodes_R (mk : Reg → Reg → Reg → Instr)
    (hmk : ∀ rd rs1 rs2,
      IsWordOf (encodeR (fieldFunct7 p) rs2 rs1 (fieldFunct3 p) rd (fieldOpcode p)) (mk rd rs1 rs2) ∧
      (mk rd rs1 rs2).mnemonic = name) :
    RowDecodes ⟨name, p, 0xFE00707F⟩ :=
  rowDecodes_shift (fun rd rs1 shamt => mk rd rs1 shamt.toFin) fun rd rs1 shamt => hmk rd rs1 shamt.toFin

theorem rowDecodes_fence : RowDecodes ⟨"fence", 0x0000000F, 0x0000007F⟩ := by
  intro w (h : w &&& 0x0000007F = 0x0000000F)
  have hop : fieldOpcode w = 0b0001111#7 := fieldOpcode_eq_of_and h (by decide)
  exact ⟨.fence (fieldAboveOpcode w), ⟨rfl, encodeRefused_fields hop rfl⟩, rfl⟩

/-- A row with every bit fixed has one word. -/
theorem rowDecodes_word {i : Instr} (h : IsWordOf p i) (hname : i.mnemonic = name) :
    RowDecodes ⟨name, p, 0xFFFFFFFF⟩ := by
  intro w hw
  have hw : w &&& BitVec.allOnes 32 = p := hw
  rw [BitVec.and_allOnes] at hw
  subst hw
  exact ⟨i, h, hname⟩

end

/-- Every row but the last, row by row. -/
theorem rowDecodes_of_mem {row : TableRow} (h : row ∈ opcodeTable) (hne : row.mnemonic ≠ "system-other") :
    RowDecodes row := by
  simp only [opcodeTable, List.cons_append, List.nil_append, List.mem_cons, List.not_mem_nil, or_false] at h
  rcases h with rfl | rfl | rfl | rfl | rfl | rfl | rfl | rfl | rfl | rfl | rfl | rfl | rfl | rfl | rfl |
    rfl | rfl | rfl | rfl | rfl | rfl | rfl | rfl | rfl | rfl | rfl | rfl | rfl | rfl | rfl | rfl | rfl |
    rfl | rfl | rfl | rfl | rfl | rfl | rfl | rfl | rfl
  · exact rowDecodes_U .lui fun _ _ => ⟨⟨rfl, rfl⟩, rfl⟩
  · exact rowDecodes_U .auipc fun _ _ => ⟨⟨rfl, rfl⟩, rfl⟩
  · exact rowDecodes_J .jal fun _ _ h => ⟨⟨h, rfl⟩, rfl⟩
  · exact rowDecodes_I .jalr fun _ _ _ => ⟨⟨rfl, rfl⟩, rfl⟩
  · exact rowDecodes_B .beq fun _ _ _ h => ⟨⟨h, rfl⟩, rfl⟩
  · exact rowDecodes_B .bne fun _ _ _ h => ⟨⟨h, rfl⟩, rfl⟩
  · exact rowDecodes_B .blt fun _ _ _ h => ⟨⟨h, rfl⟩, rfl⟩
  · exact rowDecodes_B .bge fun _ _ _ h => ⟨⟨h, rfl⟩, rfl⟩
  · exact rowDecodes_B .bltu fun _ _ _ h => ⟨⟨h, rfl⟩, rfl⟩
  · exact rowDecodes_B .bgeu fun _ _ _ h => ⟨⟨h, rfl⟩, rfl⟩
  · exact rowDecodes_I .lb fun _ _ _ => ⟨⟨rfl, rfl⟩, rfl⟩
  · exact rowDecodes_I .lh fun _ _ _ => ⟨⟨rfl, rfl⟩, rfl⟩
  · exact rowDecodes_I .lw fun _ _ _ => ⟨⟨rfl, rfl⟩, rfl⟩
  · exact rowDecodes_I .lbu fun _ _ _ => ⟨⟨rfl, rfl⟩, rfl⟩
  · exact rowDecodes_I .lhu fun _ _ _ => ⟨⟨rfl, rfl⟩, rfl⟩
  · exact rowDecodes_S .sb fun _ _ _ => ⟨⟨rfl, rfl⟩, rfl⟩
  · exact rowDecodes_S .sh fun _ _ _ => ⟨⟨rfl, rfl⟩, rfl⟩
  · exact rowDecodes_S .sw fun _ _ _ => ⟨⟨rfl, rfl⟩, rfl⟩
  · exact rowDecodes_I .addi fun _ _ _ => ⟨⟨rfl, rfl⟩, rfl⟩
  · exact rowDecodes_I .slti fun _ _ _ => ⟨⟨rfl, rfl⟩, rfl⟩
  · exact rowDecodes_I .sltiu fun _ _ _ => ⟨⟨rfl, rfl⟩, rfl⟩
  · exact rowDecodes_I .xori fun _ _ _ => ⟨⟨rfl, rfl⟩, rfl⟩
  · exact rowDecodes_I .ori fun _ _ _ => ⟨⟨rfl, rfl⟩, rfl⟩
  · exact rowDecodes_I .andi fun _ _ _ => ⟨⟨rfl, rfl⟩, rfl⟩
  · exact rowDecodes_shift .slli fun _ _ _ => ⟨⟨rfl, rfl⟩, rfl⟩
  · exact rowDecodes_shift .srli fun _ _ _ => ⟨⟨rfl, rfl⟩, rfl⟩
  · exact rowDecodes_shift .srai fun _ _ _ => ⟨⟨rfl, rfl⟩, rfl⟩
  · exact rowDecodes_R .add fun _ _ _ => ⟨⟨rfl, rfl⟩, rfl⟩
  · exact rowDecodes_R .sub fun _ _ _ => ⟨⟨rfl, rfl⟩, rfl⟩
  · exact rowDecodes_R .sll fun _ _ _ => ⟨⟨rfl, rfl⟩, rfl⟩
  · exact rowDecodes_R .slt fun _ _ _ => ⟨⟨rfl, rfl⟩, rfl⟩
  · exact rowDecodes_R .sltu fun _ _ _ => ⟨⟨rfl, rfl⟩, rfl⟩
  · exact rowDecodes_R .xor fun _ _ _ => ⟨⟨rfl, rfl⟩, rfl⟩
  · exact rowDecodes_R .srl fun _ _ _ => ⟨⟨rfl, rfl⟩, rfl⟩
  · exact rowDecodes_R .sra fun _ _ _ => ⟨⟨rfl, rfl⟩, rfl⟩
  · exact rowDecodes_R .or fun _ _ _ => ⟨⟨rfl, rfl⟩, rfl⟩
  · exact rowDecodes_R .and fun _ _ _ => ⟨⟨rfl, rfl⟩, rfl⟩
  · exact rowDecodes_fence
  · exact rowDecodes_word (i := .ecall) ⟨rfl, rfl⟩ rfl
  · exact rowDecodes_word (i := .ebreak) ⟨rfl, rfl⟩ rfl
  · exact absurd rfl hne

theorem eq_of_mnemonic_systemOther : ∀ row ∈ opcodeTable, row.mnemonic = "system-other" →
    row = ⟨"system-other", 0x00000073, 0x0000007F⟩ := by decide

/-- The last row gives way to `ecall` and `ebreak`, and to nothing else (R233). -/
theorem decode_of_matches_systemOther {w : Word} (h : w &&& 0x0000007F = 0x00000073) :
    ∃ i, decode w = .ok i ∧ (i.mnemonic = "system-other" ∨
      (w = 0x00000073 ∧ i = .ecall) ∨ (w = 0x00100073 ∧ i = .ebreak)) := by
  have hop : fieldOpcode w = 0b1110011#7 := fieldOpcode_eq_of_and h (by decide)
  have word {fields} := encodeRefused_fields (fields := fields) hop
  refine ⟨_, decode_of_system hop, ?_⟩
  unfold decodeSystem
  split
  next hcall => exact .inr (.inl ⟨(word hcall).symm, rfl⟩)
  next =>
    split
    next hbreak => exact .inr (.inr ⟨(word hbreak).symm, rfl⟩)
    next => exact .inl rfl

/-- Settles O3: a decoded word is its instruction's word, whose fixed bits are its row's; and a row's fixed
bits leave only the fields of its instruction open. -/
theorem decodeFollowsTheOpcodeTable : Obligations.DecodeFollowsTheOpcodeTable := by
  unfold Obligations.DecodeFollowsTheOpcodeTable
  constructor
  · intro w i h
    obtain ⟨-, rfl⟩ := isWordOf_of_decode h
    exact encode_matches i
  · intro w row hrow hw
    by_cases hne : row.mnemonic = "system-other"
    · obtain rfl := eq_of_mnemonic_systemOther row hrow hne
      obtain ⟨i, hd, hname | hgives⟩ := decode_of_matches_systemOther hw
      · exact ⟨i, hd, .inl hname⟩
      · exact ⟨i, hd, .inr ⟨rfl, hgives⟩⟩
    · obtain ⟨i, hi, hname⟩ := rowDecodes_of_mem hrow hne w hw
      exact ⟨i, decode_eq_ok_iff.2 hi, .inl hname⟩

end Sys2Proof

/-! PROOFS. The words that are no executable instruction: the decoder's errors, class by class, and the two
classes whose rows never execute (R93, R94). -/

namespace Sys2Proof

/-! ## The errors of each class -/

theorem funct3_cases (f : BitVec 3) :
    f = 0b000#3 ∨ f = 0b001#3 ∨ f = 0b010#3 ∨ f = 0b011#3 ∨ f = 0b100#3 ∨ f = 0b101#3 ∨ f = 0b110#3 ∨
      f = 0b111#3 := by
  revert f; decide

section
variable {w : Word} {reason : InvalidReason}

/-- One spelling of "the reason is unmapped", the one the statements below use. -/
theorem unmapped_eq_iff : .unmapped = reason ↔ reason = .unmapped := eq_comm

theorem decodeJalr_error_iff :
    decodeJalr w = .error reason ↔ reason = .unmapped ∧ fieldFunct3 w ≠ 0b000#3 := by
  rcases funct3_cases (fieldFunct3 w) with h | h | h | h | h | h | h | h <;>
    simp [decodeJalr, h, unmapped_eq_iff]

theorem decodeBranch_error_iff :
    decodeBranch w = .error reason ↔ reason = .unmapped ∧ fieldFunct3 w ∈ [0b010#3, 0b011#3] := by
  rcases funct3_cases (fieldFunct3 w) with h | h | h | h | h | h | h | h <;>
    simp [decodeBranch, h, unmapped_eq_iff]

theorem decodeLoad_error_iff :
    decodeLoad w = .error reason ↔ reason = .unmapped ∧ fieldFunct3 w ∈ [0b011#3, 0b110#3, 0b111#3] := by
  rcases funct3_cases (fieldFunct3 w) with h | h | h | h | h | h | h | h <;>
    simp [decodeLoad, h, unmapped_eq_iff]

theorem decodeStore_error_iff :
    decodeStore w = .error reason ↔ reason = .unmapped ∧ fieldFunct3 w ∉ [0b000#3, 0b001#3, 0b010#3] := by
  rcases funct3_cases (fieldFunct3 w) with h | h | h | h | h | h | h | h <;>
    simp [decodeStore, h, unmapped_eq_iff]

theorem decodeShiftLeftImm_error_iff :
    decodeShiftLeftImm w = .error reason ↔ reason = .unmapped ∧ fieldFunct7 w ≠ 0b0000000#7 := by
  unfold decodeShiftLeftImm
  split
  next h => simp [h]
  next h => simp [show fieldFunct7 w ≠ 0b0000000#7 from h, unmapped_eq_iff]

theorem decodeShiftRightImm_error_iff :
    decodeShiftRightImm w = .error reason ↔
      reason = .unmapped ∧ fieldFunct7 w ∉ [0b0000000#7, 0b0100000#7] := by
  unfold decodeShiftRightImm
  split
  next h => simp [h]
  next h => simp [h]
  next h0 h1 =>
    have h0 : fieldFunct7 w ≠ 0b0000000#7 := h0
    have h1 : fieldFunct7 w ≠ 0b0100000#7 := h1
    simp [h0, h1, unmapped_eq_iff]

theorem decodeOpImm_error_iff :
    decodeOpImm w = .error reason ↔ reason = .unmapped ∧
      (fieldFunct3 w = 0b001#3 ∧ fieldFunct7 w ≠ 0b0000000#7 ∨
        fieldFunct3 w = 0b101#3 ∧ fieldFunct7 w ∉ [0b0000000#7, 0b0100000#7]) := by
  rcases funct3_cases (fieldFunct3 w) with h | h | h | h | h | h | h | h <;>
    simp [decodeOpImm, h, decodeShiftLeftImm_error_iff, decodeShiftRightImm_error_iff]

theorem decodeOpPlain_ne_error : decodeOpPlain w ≠ .error reason := by
  rcases funct3_cases (fieldFunct3 w) with h | h | h | h | h | h | h | h <;>
    simp [decodeOpPlain, h]

theorem decodeOpAlternate_error_iff :
    decodeOpAlternate w = .error reason ↔ reason = .unmapped ∧ fieldFunct3 w ∉ [0b000#3, 0b101#3] := by
  rcases funct3_cases (fieldFunct3 w) with h | h | h | h | h | h | h | h <;>
    simp [decodeOpAlternate, h, unmapped_eq_iff]

theorem decodeOp_error_iff :
    decodeOp w = .error reason ↔ reason = .unmapped ∧
      (fieldFunct7 w ∉ [0b0000000#7, 0b0100000#7] ∨
        fieldFunct7 w = 0b0100000#7 ∧ fieldFunct3 w ∉ [0b000#3, 0b101#3]) := by
  unfold decodeOp
  split
  next h => simp [h, decodeOpPlain_ne_error]
  next h => simp [h, decodeOpAlternate_error_iff]
  next h0 h1 =>
    have h0 : fieldFunct7 w ≠ 0b0000000#7 := h0
    have h1 : fieldFunct7 w ≠ 0b0100000#7 := h1
    simp [h0, h1, unmapped_eq_iff]

/-- The classes no row of the table has (R94). -/
theorem decode_of_unassigned (hlow : w.extractLsb' 0 2 = 0b11#2)
    (hm : fieldMajor w ∉ [0b01101#5, 0b00101#5, 0b11011#5, 0b11001#5, 0b11000#5, 0b00000#5, 0b01000#5,
      0b00100#5, 0b01100#5, 0b00011#5, 0b11100#5]) : decode w = .error .unmapped := by
  simp only [List.mem_cons, List.not_mem_nil, or_false, not_or] at hm
  obtain ⟨h1, h2, h3, h4, h5, h6, h7, h8, h9, h10, h11⟩ := hm
  simp only [decode, hlow, ne_eq, not_true_eq_false, if_false]

/-- The length bits decide the reason: an error is for them exactly if they are not 11 (R81). -/
theorem decode_error_lengthBits_iff : decode w = .error .lengthBits ↔ w.extractLsb' 0 2 ≠ 0b11#2 := by
  refine ⟨fun h hlow => ?_, fun h => if_pos h⟩
  unfold decode at h
  rw [if_neg (not_not.2 hlow)] at h
  split at h
  all_goals
    simp [decodeJalr_error_iff, decodeBranch_error_iff, decodeLoad_error_iff, decodeStore_error_iff,
      decodeOpImm_error_iff, decodeOp_error_iff] at h

/-! ## The rows that never execute -/

/-- The four rows are the two classes MISC-MEM and SYSTEM (R230 to R233). -/
theorem executes_eq_false_iff (i : Instr) :
    i.executes = false ↔ fieldOpcode (encode i) = 0b0001111#7 ∨ fieldOpcode (encode i) = 0b1110011#7 := by
  cases i <;>
    simp [Instr.executes, encode, fieldOpcode_encodeU, fieldOpcode_encodeJ, fieldOpcode_encodeI,
      fieldOpcode_encodeB, fieldOpcode_encodeS, fieldOpcode_encodeShift, fieldOpcode_encodeR,
      fieldOpcode_encodeRefused]

theorem decodeExecutable_eq_ok_iff {i : Instr} :
    decodeExecutable w = .ok i ↔ decode w = .ok i ∧ i.executes = true := by
  unfold decodeExecutable
  cases decode w with
  | error reason => simp
  | ok j =>
    by_cases hj : j.executes
    · simp only [hj, if_true, Except.ok.injEq]
      refine ⟨?_, And.left⟩
      rintro rfl
      exact ⟨rfl, hj⟩
    · simp only [hj, Bool.false_eq_true, if_false, reduceCtorEq, Except.ok.injEq, false_iff, not_and]
      rintro rfl
      exact hj

/-- R93's function gives the decoder's errors, and refuses the rows that never execute. -/
theorem decodeExecutable_eq_error_iff :
    decodeExecutable w = .error reason ↔
      decode w = .error reason ∨ reason = .unmapped ∧ ∃ i, decode w = .ok i ∧ i.executes = false := by
  unfold decodeExecutable
  cases decode w with
  | error reason' => simp
  | ok i => by_cases hi : i.executes <;> simp [hi, unmapped_eq_iff]

/-- A word of MISC-MEM or SYSTEM is no executable instruction. -/
theorem decodeExecutable_of_refused (h : fieldOpcode w = 0b0001111#7 ∨ fieldOpcode w = 0b1110011#7) :
    decodeExecutable w = .error .unmapped := by
  refine decodeExecutable_eq_error_iff.2 (.inr ⟨rfl, ?_⟩)
  obtain ⟨i, hd⟩ : ∃ i, decode w = .ok i := by
    rcases h with h | h
    · exact ⟨_, decode_of_miscMem h⟩
    · exact ⟨_, decode_of_system h⟩
  obtain ⟨-, hw⟩ := isWordOf_of_decode hd
  exact ⟨i, hd, (executes_eq_false_iff i).2 (hw ▸ h)⟩

/-- A word of any other class is treated as the decoder treats it. -/
theorem decodeExecutable_of_not_refused (h1 : fieldOpcode w ≠ 0b0001111#7)
    (h2 : fieldOpcode w ≠ 0b1110011#7) : decodeExecutable w = decode w := by
  unfold decodeExecutable
  cases hd : decode w with
  | error reason => rfl
  | ok i =>
    obtain ⟨-, rfl⟩ := isWordOf_of_decode hd
    have hi : i.executes ≠ false := fun hi => ((executes_eq_false_iff i).1 hi).elim h1 h2
    simp only [Bool.ne_false_iff] at hi
    simp only [hi, if_true]

theorem decodeExecutable_error_lengthBits_iff :
    decodeExecutable w = .error .lengthBits ↔ w.extractLsb' 0 2 ≠ 0b11#2 := by
  simp [decodeExecutable_eq_error_iff, decode_error_lengthBits_iff]

/-- With length bits 11 there is one reason left. -/
theorem decodeExecutable_error_reason (hlow : w.extractLsb' 0 2 = 0b11#2)
    (h : decodeExecutable w = .error reason) : reason = .unmapped := by
  cases reason with
  | lengthBits => exact absurd hlow (decodeExecutable_error_lengthBits_iff.1 h)
  | unmapped => rfl

end

/-! ## R94's list -/

/-- Every major class is one of the nine that execute, one of the two that never do, or one no row has. -/
theorem major_cases (m : BitVec 5) :
    m = 0b01101#5 ∨ m = 0b00101#5 ∨ m = 0b11011#5 ∨ m = 0b11001#5 ∨ m = 0b11000#5 ∨ m = 0b00000#5 ∨
      m = 0b01000#5 ∨ m = 0b00100#5 ∨ m = 0b01100#5 ∨ m = 0b00011#5 ∨ m = 0b11100#5 ∨
      m ∉ [0b01101#5, 0b00101#5, 0b11011#5, 0b11001#5, 0b11000#5, 0b00000#5, 0b01000#5, 0b00100#5,
        0b01100#5, 0b00011#5, 0b11100#5] := by
  revert m; decide

/-- The list of R94, in the fields of the word. -/
def IsListedUnmapped (major : BitVec 5) (f3 : BitVec 3) (f7 : BitVec 7) : Prop :=
  major ∉ [0b01101#5, 0b00101#5, 0b11011#5, 0b11001#5, 0b11000#5, 0b00000#5, 0b01000#5, 0b00100#5,
      0b01100#5] ∨
    (major = 0b11001#5 ∧ f3 ≠ 0b000#3) ∨
    (major = 0b11000#5 ∧ f3 ∈ [0b010#3, 0b011#3]) ∨
    (major = 0b00000#5 ∧ f3 ∈ [0b011#3, 0b110#3, 0b111#3]) ∨
    (major = 0b01000#5 ∧ f3 ∉ [0b000#3, 0b001#3, 0b010#3]) ∨
    (major = 0b00100#5 ∧ f3 = 0b001#3 ∧ f7 ≠ 0b0000000#7) ∨
    (major = 0b00100#5 ∧ f3 = 0b101#3 ∧ f7 ∉ [0b0000000#7, 0b0100000#7]) ∨
    (major = 0b01100#5 ∧ f7 ∉ [0b0000000#7, 0b0100000#7]) ∨
    (major = 0b01100#5 ∧ f7 = 0b0100000#7 ∧ f3 ∉ [0b000#3, 0b101#3])

/-- Class by class, R93's function refuses exactly the listed words of the class. -/
theorem decodeExecutable_unmapped_iff {w : Word} (hlow : w.extractLsb' 0 2 = 0b11#2) :
    decodeExecutable w = .error .unmapped ↔
      IsListedUnmapped (fieldMajor w) (fieldFunct3 w) (fieldFunct7 w) := by
  have parts {major} := fieldOpcode_of_parts (major := major) hlow
  have executes {major} (hm : fieldMajor w = major) (h1 : major ++ 0b11#2 ≠ 0b0001111#7)
      (h2 : major ++ 0b11#2 ≠ 0b1110011#7) : decodeExecutable w = decode w :=
    decodeExecutable_of_not_refused (by rwa [parts hm]) (by rwa [parts hm])
  unfold IsListedUnmapped
  rcases major_cases (fieldMajor w) with hm | hm | hm | hm | hm | hm | hm | hm | hm | hm | hm | hm
  · simp [executes hm, decode_of_lui (parts hm), hm]
  · simp [executes hm, decode_of_auipc (parts hm), hm]
  · simp [executes hm, decode_of_jal (parts hm), hm]
  · simp [executes hm, decode_of_jalr (parts hm), decodeJalr_error_iff, hm]
  · simp [executes hm, decode_of_branch (parts hm), decodeBranch_error_iff, hm]
  · simp [executes hm, decode_of_load (parts hm), decodeLoad_error_iff, hm]
  · simp [executes hm, decode_of_store (parts hm), decodeStore_error_iff, hm]
  · simp [executes hm, decode_of_opImm (parts hm), decodeOpImm_error_iff, hm]
  · simp [executes hm, decode_of_op (parts hm), decodeOp_error_iff, hm]
  · simp [decodeExecutable_of_refused (.inl (parts hm)), hm]
  · simp [decodeExecutable_of_refused (.inr (parts hm)), hm]
  · have herror : decodeExecutable w = .error .unmapped :=
      decodeExecutable_eq_error_iff.2 (.inl (decode_of_unassigned hlow hm))
    refine iff_of_true herror (.inl fun hmem => hm ?_)
    exact List.mem_append_left [0b00011#5, 0b11100#5] hmem

/-- Settles O4, class by class. -/
theorem invalidEncodingsAreTheListedOnes : Obligations.InvalidEncodingsAreTheListedOnes := by
  unfold Obligations.InvalidEncodingsAreTheListedOnes
  intro w
  refine ⟨decodeExecutable_error_lengthBits_iff, ?_⟩
  by_cases hlow : w.extractLsb' 0 2 = 0b11#2
  · exact (decodeExecutable_unmapped_iff hlow).trans (and_iff_right hlow).symm
  · refine iff_of_false (fun h => ?_) (fun h => hlow h.1)
    have hlength := decodeExecutable_error_lengthBits_iff.2 hlow
    rw [h] at hlength
    cases hlength

end Sys2Proof

/-! PROOFS. The immediates bit by bit (R85 to R90): what each field reader takes from the word, extended to
32 bits, and that a decoded instruction uses just that. -/

namespace Sys2Proof

open Machine

/-! ## The bits of each extended field -/

section
variable (w : Word) {k : Nat} (hk : k < 32)
include hk

theorem getLsbD_immI : (signExtend12 (fieldImmI w)).getLsbD k =
    if 11 ≤ k then w.getLsbD 31 else w.getLsbD (k + 20) := by
  simp only [signExtend12, fieldImmI, BitVec.getLsbD_signExtend, BitVec.msb_eq_getLsbD_last,
    BitVec.getLsbD_extractLsb']
  interval_cases k <;> simp

theorem getLsbD_immS : (signExtend12 (fieldImmS w)).getLsbD k =
    if 11 ≤ k then w.getLsbD 31 else if 5 ≤ k then w.getLsbD (k + 20) else w.getLsbD (k + 7) := by
  simp only [signExtend12, fieldImmS, BitVec.getLsbD_signExtend, BitVec.msb_eq_getLsbD_last,
    BitVec.getLsbD_append, BitVec.getLsbD_extractLsb']
  interval_cases k <;> simp

theorem getLsbD_immB : (signExtend13 (fieldImmB w)).getLsbD k =
    if 12 ≤ k then w.getLsbD 31 else if k = 11 then w.getLsbD 7
    else if 5 ≤ k then w.getLsbD (k + 20) else if 1 ≤ k then w.getLsbD (k + 7) else false := by
  simp only [signExtend13, fieldImmB, BitVec.getLsbD_signExtend, BitVec.msb_eq_getLsbD_last,
    BitVec.getLsbD_append, BitVec.getLsbD_extractLsb']
  interval_cases k <;> simp

theorem getLsbD_immU : (upperImmediate (fieldImmU w)).getLsbD k =
    if 12 ≤ k then w.getLsbD k else false := by
  simp only [upperImmediate, fieldImmU, BitVec.getLsbD_append, BitVec.getLsbD_extractLsb']
  interval_cases k <;> simp

theorem getLsbD_immJ : (signExtend21 (fieldImmJ w)).getLsbD k =
    if 20 ≤ k then w.getLsbD 31 else if 12 ≤ k then w.getLsbD k else if k = 11 then w.getLsbD 20
    else if 1 ≤ k then w.getLsbD (k + 20) else false := by
  simp only [signExtend21, fieldImmJ, BitVec.getLsbD_signExtend, BitVec.msb_eq_getLsbD_last,
    BitVec.getLsbD_append, BitVec.getLsbD_extractLsb']
  interval_cases k <;> simp

theorem getLsbD_shamt : (BitVec.ofNat 32 (shiftOfField (fieldShamt w))).getLsbD k =
    if k < 5 then w.getLsbD (k + 20) else false := by
  have hzext : BitVec.ofNat 32 (shiftOfField (fieldShamt w)) = (fieldShamt w).setWidth 32 :=
    BitVec.ofNat_toNat _ _
  rw [hzext]
  simp only [fieldShamt, BitVec.getLsbD_setWidth, BitVec.getLsbD_extractLsb']
  interval_cases k <;> simp

end

/-! ## A decoded instruction uses its word's immediate -/

section
variable {w : Word} {i : Instr} (h : decode w = .ok i)
include h

theorem immediateOf_of_formatI (hi : formatOf i = .i) :
    immediateOf i = some (signExtend12 (fieldImmI w)) := by
  obtain ⟨-, rfl⟩ := isWordOf_of_decode h
  cases i with
  | jalr | lb | lh | lw | lbu | lhu | addi | slti | sltiu | xori | ori | andi =>
    simp only [immediateOf, encode, fieldImmI_encodeI]
  | _ => cases hi

theorem immediateOf_of_formatS (hi : formatOf i = .s) :
    immediateOf i = some (signExtend12 (fieldImmS w)) := by
  obtain ⟨-, rfl⟩ := isWordOf_of_decode h
  cases i with
  | sb | sh | sw => simp only [immediateOf, encode, fieldImmS_encodeS]
  | _ => cases hi

theorem immediateOf_of_formatB (hi : formatOf i = .b) :
    immediateOf i = some (signExtend13 (fieldImmB w)) := by
  obtain ⟨hwf, rfl⟩ := isWordOf_of_decode h
  cases i with
  | beq | bne | blt | bge | bltu | bgeu =>
    simp only [immediateOf, encode, fieldImmB_encodeB _ _ _ _ _ hwf]
  | _ => cases hi

theorem immediateOf_of_formatU (hi : formatOf i = .u) :
    immediateOf i = some (upperImmediate (fieldImmU w)) := by
  obtain ⟨-, rfl⟩ := isWordOf_of_decode h
  cases i with
  | lui | auipc => simp only [immediateOf, encode, fieldImmU_encodeU]
  | _ => cases hi

theorem immediateOf_of_formatJ (hi : formatOf i = .j) :
    immediateOf i = some (signExtend21 (fieldImmJ w)) := by
  obtain ⟨hwf, rfl⟩ := isWordOf_of_decode h
  cases i with
  | jal => simp only [immediateOf, encode, fieldImmJ_encodeJ _ _ _ hwf]
  | _ => cases hi

theorem immediateOf_of_formatShift (hi : formatOf i = .iShift) :
    immediateOf i = some (BitVec.ofNat 32 (shiftOfField (fieldShamt w))) := by
  obtain ⟨-, rfl⟩ := isWordOf_of_decode h
  cases i with
  | slli | srli | srai => simp only [immediateOf, encode, fieldShamt_encodeShift]
  | _ => cases hi

end

/-- Settles O5: per format, the immediate is the extended field of the word, whose bits are the listed
ones. -/
theorem immediatesComeFromTheListedBits : Obligations.ImmediatesComeFromTheListedBits := by
  unfold Obligations.ImmediatesComeFromTheListedBits
  intro w i h
  exact ⟨fun hi => ⟨_, immediateOf_of_formatI h hi, fun _ => getLsbD_immI w⟩,
    fun hi => ⟨_, immediateOf_of_formatS h hi, fun _ => getLsbD_immS w⟩,
    fun hi => ⟨_, immediateOf_of_formatB h hi, fun _ => getLsbD_immB w⟩,
    fun hi => ⟨_, immediateOf_of_formatU h hi, fun _ => getLsbD_immU w⟩,
    fun hi => ⟨_, immediateOf_of_formatShift h hi, fun _ => getLsbD_shamt w⟩⟩

/-- Settles O6, as O5 for the one instruction of its format. -/
theorem jumpImmediateComesFromTheListedBits : Obligations.JumpImmediateComesFromTheListedBits := by
  unfold Obligations.JumpImmediateComesFromTheListedBits
  intro w i h hi
  exact ⟨_, immediateOf_of_formatJ h hi, fun _ => getLsbD_immJ w⟩

/-- Settles O7: each word is the encoding of its instruction, so the round trip gives the instruction. -/
theorem sampleWordsDecode : Obligations.SampleWordsDecode := by
  unfold Obligations.SampleWordsDecode
  refine ⟨?_, ?_, ?_, ?_, ?_, ?_, ?_, ?_, ?_, ?_⟩
  all_goals exact decode_eq_ok_iff.2 ⟨rfl, rfl⟩

end Sys2Proof

/-! PROOFS. What a step does with the word it fetches, from R93's function on: the order of the checks, the
faults there are, and the rows that never execute (R121, R230 to R233, R240 to R245). -/

namespace Sys2Proof.Machine

/-! ## The fetch and the words that do not execute -/

section
variable {s : State}

theorem step_of_misaligned (h : s.pc.toNat % 4 ≠ 0) : step s = .fault (.misalignedFetch s.pc) := by
  have hf : fetch s = .error (.misalignedFetch s.pc) := if_pos h
  simp only [step, hf]

theorem step_of_fetch_outOfBounds (halign : s.pc.toNat % 4 = 0) (hout : s.cfg.memSize < s.pc.toNat + 4) :
    step s = .fault (.outOfBounds .fetch s.pc 4) := by
  rcases fetch_cases s with ⟨hmis, -⟩ | ⟨-, -, hf⟩ | ⟨-, hin, -⟩
  · exact absurd halign hmis
  · simp only [step, hf]
  · exact absurd hin (Nat.not_le.2 hout)

/-- A row that never executes raises its own word (R230 to R233). -/
theorem exec_of_not_executes {i : Instr} (h : i.executes = false) (s : State) :
    exec i s = .fault (.invalidEncoding .unmapped (encode i)) := by
  cases i with
  | fence | ecall | ebreak | systemOther => rfl
  | _ => cases h

/-- A word that is no executable instruction faults with it and R93's reason, whether the decoder refuses it
or names a row that never executes. -/
theorem step_of_decodeExecutable_error {reason : InvalidReason} (hf : Fetchable s)
    (h : decodeExecutable (wordAtPc s) = .error reason) :
    step s = .fault (.invalidEncoding reason (wordAtPc s)) := by
  have hfetch := fetch_of_fetchable hf
  rcases decodeExecutable_eq_error_iff.1 h with hd | ⟨rfl, i, hd, hi⟩
  · exact step_of_decode_error hfetch hd
  · obtain ⟨-, hword⟩ := isWordOf_of_decode hd
    rw [step_of_decode hfetch hd, exec_of_not_executes hi, hword]

/-- A word that is an executable instruction runs it. -/
theorem step_of_decodeExecutable {i : Instr} (hf : Fetchable s)
    (h : decodeExecutable (wordAtPc s) = .ok i) : step s = exec i s :=
  step_of_decode (fetch_of_fetchable hf) (decodeExecutable_eq_ok_iff.1 h).1

end

/-! ## The bound of an access -/

/-- A load out of bounds faults at its span (R170, R171 to R175). -/
theorem exec_of_loadSpan {i : Instr} {s : State} {ea : Word} {size : Nat} (h : loadSpan i s = some (ea, size))
    (hout : s.cfg.memSize < ea.toNat + size) : exec i s = .fault (.outOfBounds .load ea size) := by
  cases i with
  | lb | lh | lw | lbu | lhu => cases h; exact loadTo_fault (Nat.not_le.2 hout)
  | _ => cases h

/-- A store out of bounds faults at its span (R170, R176 to R178). -/
theorem exec_of_storeSpan {i : Instr} {s : State} {ea : Word} {size : Nat}
    (h : storeSpan i s = some (ea, size)) (hout : s.cfg.memSize < ea.toNat + size) :
    exec i s = .fault (.outOfBounds .store ea size) := by
  cases i with
  | sb | sh | sw => cases h; exact storeTo_fault (Nat.not_le.2 hout)
  | _ => cases h

theorem loadTo_eq_fault {rd : Reg} {addr : Word} {w : Width} {extend : Word → Word} {s : State} {f : Fault}
    (h : loadTo rd addr w extend s = .fault f) :
    f = .outOfBounds .load addr w.bytes ∧ s.cfg.memSize < addr.toNat + w.bytes := by
  by_cases hin : InBounds addr w s
  · obtain ⟨t, ht, -⟩ := loadTo_spec (rd := rd) (extend := extend) hin
    rw [ht] at h; cases h
  · rw [loadTo_fault hin] at h; cases h
    exact ⟨rfl, Nat.not_le.1 hin⟩

theorem storeTo_eq_fault {addr : Word} {w : Width} {v : Word} {s : State} {f : Fault}
    (h : storeTo addr w v s = .fault f) :
    f = .outOfBounds .store addr w.bytes ∧ s.cfg.memSize < addr.toNat + w.bytes := by
  by_cases hin : InBounds addr w s
  · obtain ⟨t, ht, -⟩ := storeTo_spec (v := v) hin
    rw [ht] at h; cases h
  · rw [storeTo_fault hin] at h; cases h
    exact ⟨rfl, Nat.not_le.1 hin⟩

/-- An executable instruction faults only as a load or a store out of bounds at its own span (R240). -/
theorem exec_eq_fault {i : Instr} {s : State} {f : Fault} (hi : i.executes = true) (h : exec i s = .fault f) :
    ∃ ea size, s.cfg.memSize < ea.toNat + size ∧
      (f = .outOfBounds .load ea size ∧ loadSpan i s = some (ea, size) ∨
        f = .outOfBounds .store ea size ∧ storeSpan i s = some (ea, size)) := by
  cases i with
  | lb | lh | lw | lbu | lhu =>
    obtain ⟨hf, hout⟩ := loadTo_eq_fault h
    exact ⟨_, _, hout, .inl ⟨hf, rfl⟩⟩
  | sb | sh | sw =>
    obtain ⟨hf, hout⟩ := storeTo_eq_fault h
    exact ⟨_, _, hout, .inr ⟨hf, rfl⟩⟩
  | fence | ecall | ebreak | systemOther => cases hi
  | _ => cases h

/-- No instruction is declined. -/
theorem exec_ne_refused (i : Instr) (s : State) (r : Refusal) : exec i s ≠ .refused r := by
  intro h
  rcases exec_can i s with ⟨e, he, -⟩ | ⟨w, he⟩ | ⟨a, n, he | he⟩
  all_goals rw [he] at h; cases h

theorem step_ne_refused (s : State) (r : Refusal) : step s ≠ .refused r := by
  intro h
  rcases step_cases s with ⟨f, -, hs⟩ | ⟨w, reason, -, -, hs⟩ | ⟨w, i, -, -, hs⟩
  · rw [hs] at h; cases h
  · rw [hs] at h; cases h
  · exact exec_ne_refused i s r (hs ▸ h)

/-! ## The statements -/

/-- Settles O10: each check's fault ends the call at its first unit. -/
theorem firstFailingCheckDecides : Obligations.FirstFailingCheckDecides := by
  unfold Obligations.FirstFailingCheckDecides
  intro s n
  refine ⟨stepCall_zero s, fun hmis => ?_, fun halign hout => ?_, fun hf hlow => ?_, fun hf hlow hno => ?_,
    fun i rs1 imm size hf hd hload hout => ?_, fun i ea size hf hd hspan hout => ?_⟩
  · exact stepCall_fault (step_of_misaligned hmis) n
  · exact stepCall_fault (step_of_fetch_outOfBounds halign hout) n
  · exact stepCall_fault (step_of_lowBits_ne hf hlow) n
  · cases hd : decodeExecutable (wordAtPc s) with
    | ok i => exact absurd hd (hno i)
    | error reason =>
      obtain rfl := decodeExecutable_error_reason hlow hd
      exact stepCall_fault (step_of_decodeExecutable_error hf hd) n
  · have hspan : loadSpan i s = some (effectiveAddress rs1 imm s, size) := by
      rcases hload with ⟨⟨rd, rfl | rfl⟩, rfl⟩ | ⟨⟨rd, rfl | rfl⟩, rfl⟩ | ⟨⟨rd, rfl⟩, rfl⟩
      all_goals rfl
    exact stepCall_fault ((step_of_decodeExecutable hf hd).trans (exec_of_loadSpan hspan hout)) n
  · exact stepCall_fault ((step_of_decodeExecutable hf hd).trans (exec_of_storeSpan hspan hout)) n

/-- Settles O11, along the ways a step can end: at the fetch, at R93's function, or in the instruction. -/
theorem stepFaultsOnlyForTheListedReasons : Obligations.StepFaultsOnlyForTheListedReasons := by
  unfold Obligations.StepFaultsOnlyForTheListedReasons
  intro s
  refine ⟨step_ne_refused s, fun f h => ?_⟩
  by_cases halign : s.pc.toNat % 4 = 0
  case neg =>
    rw [step_of_misaligned halign] at h; cases h
    exact .inl ⟨rfl, halign⟩
  by_cases hin : s.pc.toNat + 4 ≤ s.cfg.memSize
  case neg =>
    rw [step_of_fetch_outOfBounds halign (Nat.not_le.1 hin)] at h; cases h
    exact .inr (.inl ⟨rfl, halign, Nat.not_le.1 hin⟩)
  have hf : Fetchable s := ⟨halign, hin⟩
  refine .inr (.inr ?_)
  cases hd : decodeExecutable (wordAtPc s) with
  | error reason =>
    rw [step_of_decodeExecutable_error hf hd] at h; cases h
    exact .inl ⟨reason, rfl, hf, rfl⟩
  | ok i =>
    rw [step_of_decodeExecutable hf hd] at h
    obtain ⟨-, hi⟩ := decodeExecutable_eq_ok_iff.1 hd
    obtain ⟨ea, size, hout, ⟨rfl, hspan⟩ | ⟨rfl, hspan⟩⟩ := exec_eq_fault hi h
    · exact .inr (.inl ⟨i, ea, size, rfl, hf, rfl, hspan, hout⟩)
    · exact .inr (.inr ⟨i, ea, size, rfl, hf, rfl, hspan, hout⟩)

/-- Settles O40: the rows raise their own words, and R93's function refuses every word of their classes. -/
theorem refusedRowsRaiseInvalidEncoding : Obligations.RefusedRowsRaiseInvalidEncoding := by
  unfold Obligations.RefusedRowsRaiseInvalidEncoding
  refine ⟨fun s fields => ?_, fun s n hf hop => ?_⟩
  · exact ⟨exec_of_not_executes (i := .fence fields) rfl s, exec_of_not_executes (i := .ecall) rfl s,
      exec_of_not_executes (i := .ebreak) rfl s, exec_of_not_executes (i := .systemOther fields) rfl s⟩
  · exact stepCall_fault (step_of_decodeExecutable_error hf (decodeExecutable_of_refused hop)) n

/-- A jump or branch completes, whatever its target (R158). -/
theorem exists_next_of_isTransfer {i : Instr} (h : i.isTransfer = true) (s : State) :
    ∃ t, exec i s = .next t := by
  cases i with
  | jal | jalr | beq | bne | blt | bge | bltu | bgeu => exact ⟨_, rfl⟩
  | _ => cases h

/-- Settles O28: the transfer completes, and the target's fault is that of the step after it. -/
theorem badTargetFaultsAtTheNextFetch : Obligations.BadTargetFaultsAtTheNextFetch := by
  unfold Obligations.BadTargetFaultsAtTheNextFetch
  intro s n i hf hd hi
  obtain ⟨t, ht⟩ := exists_next_of_isTransfer hi s
  have hstep : step s = .next t := (step_of_decode (fetch_of_fetchable hf) hd).trans ht
  refine ⟨t, ht, hstep, stepCall_next hstep 0, fun hmis => ?_, fun halign hout => ?_⟩
  · rw [stepCall_next hstep, stepCall_fault (step_of_misaligned hmis)]
  · rw [stepCall_next hstep, stepCall_fault (step_of_fetch_outOfBounds halign hout)]

end Sys2Proof.Machine

/-! PROOFS. The Step call by induction on its budget, and its small-step form (R121 to R128). -/

namespace Sys2Proof.Machine

/-- The two ways a call ends: its whole budget completed, or a fault with some of it left (R121, R123). -/
theorem stepCall_ends (n : Nat) (s : State) :
    ((stepCall n s).remaining = 0 ∧ (stepCall n s).status = .ok) ∨
      ∃ f, (stepCall n s).status = .fault f ∧
        1 ≤ (stepCall n s).remaining ∧ (stepCall n s).remaining ≤ n := by
  induction n generalizing s with
  | zero => exact .inl ⟨rfl, rfl⟩
  | succ n ih =>
    cases hs : step s with
    | next t =>
      rw [stepCall_next hs]
      exact (ih t).imp_right fun ⟨f, hf, hlow, hhigh⟩ => ⟨f, hf, hlow, Nat.le_succ_of_le hhigh⟩
    | fault f =>
      rw [stepCall_fault hs]
      exact .inr ⟨f, rfl, Nat.le_add_left 1 n, Nat.le_refl _⟩
    | refused r => exact absurd hs (step_ne_refused s r)

/-- Settles O13: the two ways a call ends differ in the count and in the status alike. -/
theorem remainingTellsCompletionFromFault : Obligations.RemainingTellsCompletionFromFault := by
  unfold Obligations.RemainingTellsCompletionFromFault
  intro n s
  have hends := stepCall_ends n s
  refine ⟨hends, ?_⟩
  rcases hends with ⟨hrem, hstatus⟩ | ⟨f, hstatus, hrem, -⟩
  · simp [hrem, hstatus]
  · exact iff_of_true hrem ⟨f, hstatus⟩

/-- Settles O14, by induction on the completed part of the budget. -/
theorem splitBudgetIsOneBudget : Obligations.SplitBudgetIsOneBudget := by
  unfold Obligations.SplitBudgetIsOneBudget
  intro a b s t h
  induction a generalizing s with
  | zero => cases h; rw [Nat.zero_add]
  | succ a ih =>
    rw [Nat.succ_add]
    cases hs : step s with
    | next u => rw [stepCall_next hs] at h ⊢; exact ih u h
    | fault f => rw [stepCall_fault hs] at h; cases h
    | refused r => rw [stepCall_refused hs] at h; cases h

/-- Settles O16: the state a fault leaves is one whose step faults. -/
theorem faultRepeatsUntilTheHostChangesTheState : Obligations.FaultRepeatsUntilTheHostChangesTheState := by
  unfold Obligations.FaultRepeatsUntilTheHostChangesTheState
  intro n r m s t f h
  obtain ⟨k, -, -, -, hfault⟩ := exists_completed_of_stepCall_fault h
  exact stepCall_fault hfault m

/-! ## Turns of the loop -/

theorem ticks_of_halted (k : Nat) {c : Call} (h : c.engine = .halted) : Call.ticks k c = c := by
  induction k with
  | zero => rfl
  | succ k ih =>
    have htick : c.tick = c := by simp only [Call.tick, h]
    rw [Call.ticks, htick, ih]

section
variable {s : State}

theorem tick_next {t : State} (h : step s = .next t) (n : Nat) :
    (Call.start (n + 1) s).tick = Call.start n t := by
  simp only [Call.tick, Call.start, h]

theorem tick_fault {f : Fault} (h : step s = .fault f) (n : Nat) :
    (Call.start (n + 1) s).tick = ⟨.halted, n + 1, .fault f, s⟩ := by
  simp only [Call.tick, Call.start, h]

end

/-- Settles O17, by induction on the budget: a turn completes an instruction, or halts and stays so. -/
theorem loopTurnsGiveTheStepCall : Obligations.LoopTurnsGiveTheStepCall := by
  unfold Obligations.LoopTurnsGiveTheStepCall
  intro n k s
  induction n generalizing s with
  | zero =>
    rw [Nat.zero_add, Nat.add_comm, Call.ticks]
    exact ticks_of_halted k rfl
  | succ n ih =>
    rw [Nat.add_right_comm, Call.ticks]
    cases hs : step s with
    | next t => rw [tick_next hs, stepCall_next hs, ih]
    | fault f => rw [tick_fault hs, stepCall_fault hs]; exact ticks_of_halted _ rfl
    | refused r => exact absurd hs (step_ne_refused s r)

end Sys2Proof.Machine

/-! PROOFS. `POISON` is unobserved by execution (R6, R274). -/

namespace Sys2Proof.Machine

theorem writeX_withPoison (r : Reg) (v p : Word) (s : State) :
    writeX r v (withPoison p s) = withPoison p (writeX r v s) := by
  unfold writeX; split <;> rfl

theorem commitReg_withPoison (e : Effect) (p : Word) (s : State) :
    commitReg e (withPoison p s) = withPoison p (commitReg e s) := by
  unfold commitReg
  split
  · exact writeX_withPoison _ _ p s
  · rfl

/-- No instruction reads the parameter, and none writes it. -/
theorem unobserved_withPoison (p : Word) : Unobserved (withPoison p) where
  x _ := rfl
  pc _ := rfl
  mem _ := rfl
  memSize _ := rfl
  commit e s := by simp only [commit, commitReg_withPoison]; rfl

/-- Settles O19: another `POISON` is an unobserved change. -/
theorem executionIgnoresPoison : Obligations.ExecutionIgnoresPoison := by
  unfold Obligations.ExecutionIgnoresPoison
  exact fun s p => (unobserved_withPoison p).step_eq s

end Sys2Proof.Machine

/-! PROOFS. The invariant: it holds at power-on, and every step, host call and session keeps it (R6, R30,
R50, R131). -/

namespace Sys2Proof.Machine

namespace State.Inv

section
variable {s t : State} (h : s.Inv)
include h

/-- The invariant is about memory, the table and the parameters only. -/
theorem congr (hm : t.mem = s.mem) (hb : t.bkpts = s.bkpts) (hc : t.cfg = s.cfg) : t.Inv := by
  simpa only [State.Inv, hm, hb, hc] using h

/-- Bytes written within the capacity keep it. -/
theorem writeBytes {a : Nat} {bs : List Byte} (ha : a + bs.length ≤ s.cfg.memSize) :
    State.Inv { s with mem := Machine.writeBytes s.mem a bs } := by
  obtain ⟨hlegal, hwf, hbelow, htable⟩ := h
  exact ⟨hlegal, Memory.wf_writeBytes hwf a bs, writeBytes_below bs hbelow ha, htable⟩

theorem storeBytes {addr : Word} {w : Width} (v : Word) (hin : InBounds addr w s) :
    State.Inv { s with mem := Machine.storeBytes addr w v s.mem } :=
  h.writeBytes (by simpa using hin)

/-- Committing an effect whose memory write is in bounds keeps it. -/
theorem commit {e : Effect} (he : ∀ w, e.mem = some w → InBounds w.addr w.width s) :
    (Machine.commit e s).Inv := by
  cases hmem : e.mem with
  | none => exact h.congr (by simp only [commit_mem, commitMem, hmem]) (by simp) (by simp)
  | some w =>
    refine (h.storeBytes w.value (he w hmem)).congr ?_ (by simp) (by simp)
    simp only [commit_mem, commitMem, hmem]

theorem step_next (ht : step s = .next t) : t.Inv := by
  obtain ⟨w, i, -, -, -, e, rfl, -, hmem, -⟩ := Machine.step_next ht
  exact h.commit fun w hw => (hmem w hw).2

theorem setBreakpoint (addr : Word) (b : Bool) : (Machine.setBreakpoint addr b s).Inv := by
  obtain ⟨hlegal, hwf, hbelow, htable⟩ := h
  unfold Machine.setBreakpoint
  split
  case isFalse => exact ⟨hlegal, hwf, hbelow, htable⟩
  case isTrue hin =>
    refine ⟨hlegal, hwf, hbelow, ?_⟩
    have hclear := breakpointsWf_clearEntry htable (breakpointEntry addr)
    have hentry : breakpointEntry addr < s.cfg.memSize / 4 := by
      obtain ⟨hmul, -⟩ := hlegal
      unfold breakpointEntry
      omega
    cases b with
    | false => exact hclear
    | true => exact breakpointsWf_insertEntry hclear hentry fun hmem => (mem_clearEntry.1 hmem).2 rfl

end

theorem stepCall {s : State} (h : s.Inv) (n : Nat) : (Machine.stepCall n s).state.Inv := by
  induction n generalizing s with
  | zero => exact h
  | succ n ih =>
    cases hs : step s with
    | next t => rw [stepCall_next hs]; exact ih (h.step_next hs)
    | fault f => rw [stepCall_fault hs]; exact h
    | refused r => rw [stepCall_refused hs]; exact h

/-- A port call, port by port. -/
theorem hostCall {s : State} (h : s.Inv) (c : HostCall) : (Machine.hostCall c s).1.Inv := by
  cases c with
  | reset => exact h.congr (resetRegisters_mem s) (resetRegisters_bkpts s) (resetRegisters_cfg s)
  | readMemory w addr => simp only [Machine.hostCall]; split <;> exact h
  | writeMemory w addr v =>
    by_cases hin : InBounds addr w s
    · simp only [Machine.hostCall, writeMemory, memWrite_ok hin]
      exact h.storeBytes v hin
    · simp only [Machine.hostCall, writeMemory, memWrite_error hin]
      exact h
  | getRegister key => simp only [Machine.hostCall]; split <;> exact h
  | setRegister i v => exact h.congr (setRegister_mem i v s) (setRegister_bkpts i v s) (setRegister_cfg i v s)
  | step n => exact h.stepCall n
  | getBreakpoint addr => exact h
  | setBreakpoint addr b => exact h.setBreakpoint addr b
  | loadImage base blob =>
    simp only [Machine.hostCall, loadImage]
    by_cases hin : base.toNat + blob.length ≤ s.cfg.memSize
    · simp only [hin, if_true]; exact h.writeBytes hin
    · simp only [hin, if_false]; exact h

theorem runSession {s : State} (h : s.Inv) (cs : List HostCall) : (Machine.runSession cs s).1.Inv := by
  induction cs generalizing s with
  | nil => exact h
  | cons c cs ih => exact ih (h.hostCall c)

theorem powerOn {c : Config} (h : c.Legal) : (State.powerOn c).Inv :=
  ⟨h, Memory.wf_nil, by simp, List.Pairwise.nil, by simp⟩

end State.Inv

/-- Settles O20: memory and table are empty at power-on. -/
theorem powerOnMeetsTheInvariant : Obligations.PowerOnMeetsTheInvariant := by
  unfold Obligations.PowerOnMeetsTheInvariant
  exact ⟨fun c h => State.Inv.powerOn h, State.Inv.powerOn (by decide)⟩

/-- Settles O21: a completed step committed an effect whose memory write is in bounds. -/
theorem everyStepKeepsTheInvariant : Obligations.EveryStepKeepsTheInvariant := by
  unfold Obligations.EveryStepKeepsTheInvariant
  exact fun s t h ht => h.step_next ht

/-- Settles O22: port by port, and by induction on the session. -/
theorem everyHostCallKeepsTheInvariant : Obligations.EveryHostCallKeepsTheInvariant := by
  unfold Obligations.EveryHostCallKeepsTheInvariant
  exact ⟨fun c s h => h.hostCall c, fun cs s h => h.runSession cs⟩

end Sys2Proof.Machine

/-! PROOFS. The frame of a step: what a completed instruction leaves unchanged (R22, R61, R122, R124). -/

namespace Sys2Proof.Machine

/-- A fetch that answers a word answers the word at a fetchable pc. -/
theorem fetch_eq_ok {s : State} {w : Word} (h : fetch s = .ok w) : Fetchable s ∧ w = wordAtPc s := by
  rcases fetch_cases s with ⟨-, hf⟩ | ⟨-, -, hf⟩ | ⟨halign, hin, -⟩
  · rw [hf] at h; cases h
  · rw [hf] at h; cases h
  · have hfetchable : Fetchable s := ⟨halign, hin⟩
    rw [fetch_of_fetchable hfetchable] at h
    cases h
    exact ⟨hfetchable, rfl⟩

/-- A completed store changes bytes of its span only. -/
theorem storeTo_frame {addr : Word} {w : Width} {v : Word} {s t : State} (h : storeTo addr w v s = .next t)
    {a : Nat} (ha : readByte t.mem a ≠ readByte s.mem a) : addr.toNat ≤ a ∧ a < addr.toNat + w.bytes := by
  by_cases hin : InBounds addr w s
  · obtain ⟨t', ht', -, -, hmem, -⟩ := storeTo_spec (v := v) hin
    rw [ht'] at h; cases h
    by_contra hout
    exact ha ((hmem a).trans (if_neg hout))
  · rw [storeTo_fault hin] at h; cases h

/-- The three stores, at their spans. -/
theorem exec_store_frame {i : Instr} {s t : State} (hi : i.isStore = true) (h : exec i s = .next t) {a : Nat}
    (ha : readByte t.mem a ≠ readByte s.mem a) :
    ∃ addr size, storeSpan i s = some (addr, size) ∧ addr.toNat ≤ a ∧ a < addr.toNat + size := by
  cases i with
  | sb | sh | sw => exact ⟨_, _, rfl, storeTo_frame h ha⟩
  | _ => cases hi

/-- Committing an effect changes no register but the one it names. -/
theorem commit_frame {e : Effect} {s : State} {r : Reg} (h : readX r (commit e s) ≠ readX r s) :
    ∃ v, e.reg = some (r, v) ∧ r ≠ 0 := by
  rw [readX_commit, commitReg] at h
  split at h
  next q v hreg =>
    rw [readX_writeX] at h
    by_cases hr : r = 0
    · subst hr; simp at h
    · by_cases hrq : r = q
      · exact ⟨v, hrq ▸ hreg, hr⟩
      · simp [hr, hrq] at h
  next => exact absurd rfl h

/-- Settles O23: register and pc by the committed effect, memory by the store's span. -/
theorem stepChangesOnlyWhatItsInstructionNames : Obligations.StepChangesOnlyWhatItsInstructionNames := by
  unfold Obligations.StepChangesOnlyWhatItsInstructionNames
  intro s t h
  obtain ⟨w, i, hf, hd, hexec, e, rfl, hreg, hmem, htarget⟩ := step_next h
  obtain ⟨-, rfl⟩ := fetch_eq_ok hf
  refine ⟨i, hd, ?_, fun r hr => ?_, fun a ha => ?_, fun hi => ?_, by simp, by simp⟩
  · by_contra hi
    rw [exec_of_not_executes (Bool.not_eq_true _ ▸ hi)] at hexec
    cases hexec
  · obtain ⟨v, he, hzero⟩ := commit_frame hr
    exact ⟨hreg _ he, hzero⟩
  · have hstore : i.isStore = true := by
      cases he : e.mem with
      | none => simp [commitMem, he] at ha
      | some w => exact (hmem w he).1
    exact exec_store_frame hstore hexec ha
  · cases he : e.target with
    | none => simp only [commit_pc, nextPc, he]
    | some x => rw [htarget x he] at hi; cases hi

end Sys2Proof.Machine

/-! PROOFS. The results of the instructions that write a register or move the pc (41_upper_immediate.md to
45_integer_register.md), each through the shape of its meaning. -/

namespace Sys2Proof.Machine

/-! ## Completing, by the shape of a meaning -/

section
variable {i : Instr} {s : State} {rd : Reg}

theorem completesWriting {v v' : Word} (h : exec i s = writeResult rd v s) (hv : v = v') :
    CompletesWriting i s rd v' := by
  rw [CompletesWriting, h, ← hv]
  exact writeResult_spec rd v s

theorem completesMoving {taken : Bool} {off : BitVec 13} {target : Word}
    (h : exec i s = branchIf taken (branchTarget off s) s)
    (ht : (if taken = true then BitVec.ofInt 32 (s.pc.toInt + off.toInt) else s.pc + 4) = target) :
    CompletesMoving i s target := by
  rw [CompletesMoving, h, ← ht, ← branchTarget_eq]
  exact branchIf_spec taken _ s

end

/-! ## The values as the statements write them -/

/-- A sum of readings is the reading of the sum modulo 2^32. -/
theorem ofNat_toNat_add (a : Word) (n : Nat) : BitVec.ofNat 32 (a.toNat + n) = a + BitVec.ofNat 32 n := by
  rw [BitVec.ofNat_add, BitVec.ofNat_toNat, BitVec.setWidth_eq]

theorem upperImmediate_eq (imm : BitVec 20) : upperImmediate imm = BitVec.ofNat 32 (imm.toNat * 2 ^ 12) := by
  rw [← toNat_upperImmediate, BitVec.ofNat_toNat, BitVec.setWidth_eq]

theorem boolToWord_lessSigned (a b : Word) :
    boolToWord (lessSigned a b) = if a.toInt < b.toInt then 1 else 0 := by
  simp only [boolToWord, lessSigned, decide_eq_true_eq]

theorem boolToWord_lessUnsigned (a b : Word) :
    boolToWord (lessUnsigned a b) = if a.toNat < b.toNat then 1 else 0 := by
  simp only [boolToWord, lessUnsigned, decide_eq_true_eq]

/-- The bits of a sign-extended 12-bit immediate. -/
theorem getLsbD_signExtend12 (imm : BitVec 12) {k : Nat} (hk : k < 32) :
    (signExtend12 imm).getLsbD k = if k < 12 then imm.getLsbD k else imm.getLsbD 11 := by
  simp only [signExtend12, BitVec.getLsbD_signExtend, BitVec.msb_eq_getLsbD_last, hk, decide_true,
    Bool.true_and]

/-! ## Upper immediates, jumps and branches -/

/-- Settles O25. -/
theorem upperImmediateResults : Obligations.UpperImmediateResults := by
  unfold Obligations.UpperImmediateResults
  intro s rd imm
  refine ⟨completesWriting rfl (upperImmediate_eq imm), completesWriting rfl ?_⟩
  rw [ofNat_toNat_add, upperImmediate_eq]

/-- Settles O26: the link and each target as numbers. -/
theorem jumpsLinkAndSetThePc : Obligations.JumpsLinkAndSetThePc := by
  unfold Obligations.JumpsLinkAndSetThePc
  intro s rd rs1 off imm
  rw [ofNat_toNat_add, ← jalTarget_eq, ← clearBit0_eq]
  exact ⟨jumpAndLink_spec rd (jalTarget off s) s, jumpAndLink_spec rd (jalrTarget rs1 imm s) s⟩

/-- Settles O27: each branch's condition as the comparison of its rule. -/
theorem branchesMoveThePcAlone : Obligations.BranchesMoveThePcAlone := by
  unfold Obligations.BranchesMoveThePcAlone
  intro s rs1 rs2 off a b target
  refine ⟨completesMoving rfl ?_, completesMoving rfl ?_, completesMoving rfl ?_, completesMoving rfl ?_,
    completesMoving rfl ?_, completesMoving rfl ?_⟩
  · simp only [beq_iff_eq]; rfl
  · simp only [bne_iff_ne, ne_eq, ite_not]; rfl
  · simp only [lessSigned, decide_eq_true_eq]; rfl
  · simp only [lessSigned, Bool.not_eq_true', decide_eq_false_iff_not, Int.not_lt]; rfl
  · simp only [lessUnsigned, decide_eq_true_eq]; rfl
  · simp only [lessUnsigned, Bool.not_eq_true', decide_eq_false_iff_not, Nat.not_lt]; rfl

/-! ## Register-immediate operations -/

/-- Settles O34. -/
theorem immediateArithmeticResults : Obligations.ImmediateArithmeticResults := by
  unfold Obligations.ImmediateArithmeticResults
  intro s rd rs1 imm a
  refine ⟨completesWriting rfl (effectiveAddress_eq rs1 imm s), completesWriting rfl ?_,
    completesWriting rfl (boolToWord_lessUnsigned ..)⟩
  rw [boolToWord_lessSigned, toInt_signExtend12]

/-- Settles O35: the bits of the operation, with those of the extended immediate. -/
theorem immediateLogicResults : Obligations.ImmediateLogicResults := by
  unfold Obligations.ImmediateLogicResults
  intro s rd rs1 imm a immBit
  refine ⟨a ^^^ signExtend12 imm, a ||| signExtend12 imm, a &&& signExtend12 imm, fun k hk => ?_,
    completesWriting rfl rfl, completesWriting rfl rfl, completesWriting rfl rfl⟩
  rw [BitVec.getLsbD_xor, BitVec.getLsbD_or, BitVec.getLsbD_and, getLsbD_signExtend12 imm hk]
  exact ⟨rfl, rfl, rfl⟩

/-- Settles O36. -/
theorem immediateShiftResults : Obligations.ImmediateShiftResults := by
  unfold Obligations.ImmediateShiftResults
  intro s rd rs1 shamt a
  exact ⟨completesWriting rfl (shiftLeft_eq a shamt.toNat),
    completesWriting rfl (shiftRight_eq a shamt.toNat),
    completesWriting rfl (sshiftRight_eq a shamt.toNat)⟩

/-! ## Register-register operations -/

/-- Settles O37. -/
theorem registerArithmeticResults : Obligations.RegisterArithmeticResults := by
  unfold Obligations.RegisterArithmeticResults
  intro s rd rs1 rs2 a b
  refine ⟨completesWriting rfl ?_, completesWriting rfl ?_, completesWriting rfl (boolToWord_lessSigned a b),
    completesWriting rfl (boolToWord_lessUnsigned a b)⟩
  · rw [ofNat_toNat_add, BitVec.ofNat_toNat, BitVec.setWidth_eq]
  · rw [Int.sub_eq_add_neg, BitVec.ofInt_add, BitVec.ofInt_neg]
    simp [a, b, BitVec.sub_eq_add_neg]

/-- Settles O38: the bits of the operation. -/
theorem registerLogicResults : Obligations.RegisterLogicResults := by
  unfold Obligations.RegisterLogicResults
  intro s rd rs1 rs2 a b
  exact ⟨a ^^^ b, a ||| b, a &&& b,
    fun k _ => ⟨BitVec.getLsbD_xor, BitVec.getLsbD_or, BitVec.getLsbD_and⟩,
    completesWriting rfl rfl, completesWriting rfl rfl, completesWriting rfl rfl⟩

/-- Settles O39: as O36, the amount being the register modulo 32. -/
theorem registerShiftResults : Obligations.RegisterShiftResults := by
  unfold Obligations.RegisterShiftResults
  intro s rd rs1 rs2 a n
  have hn : n = shiftOfWord (readX rs2 s) := (shiftOfWord_eq _).symm
  rw [hn]
  exact ⟨completesWriting rfl (shiftLeft_eq a _), completesWriting rfl (shiftRight_eq a _),
    completesWriting rfl (sshiftRight_eq a _)⟩

end Sys2Proof.Machine

/-! PROOFS. Memory accesses: the access primitives, the loads and the stores (20_memory.md,
43_loads_stores.md). -/

namespace Sys2Proof.Machine

/-! ## Bytes read and assembled -/

theorem getElem?_readBytes (m : Memory) (a n j : Nat) :
    (readBytes m a n)[j]? = if j < n then some (readByte m (a + j)) else none := by
  induction n generalizing a j with
  | zero => simp [readBytes]
  | succ n ih =>
    cases j with
    | zero => simp [readBytes]
    | succ j => simp [readBytes, ih, Nat.add_assoc, Nat.add_comm 1]

/-- A span of bytes reads the same in two memories that agree on it. -/
theorem readBytes_congr {m m' : Memory} {a n : Nat} (h : ∀ j < n, readByte m' (a + j) = readByte m (a + j)) :
    readBytes m' a n = readBytes m a n := by
  apply List.ext_getElem?
  intro j
  rw [getElem?_readBytes, getElem?_readBytes]
  split
  next hj => rw [h j hj]
  next => rfl

/-- Bit `k` of a little-endian value is bit `k % 8` of its byte `k / 8` (R53). -/
theorem getLsbD_wordOfBytes (bs : List Byte) {k : Nat} (hk : k < 32) :
    (wordOfBytes bs).getLsbD k = (bs[k / 8]?.getD 0).getLsbD (k % 8) := by
  induction bs generalizing k with
  | nil => simp [wordOfBytes]
  | cons b bs ih =>
    rw [wordOfBytes, BitVec.getLsbD_or, BitVec.getLsbD_setWidth, BitVec.getLsbD_shiftLeft]
    by_cases hlow : k < 8
    · simp [hk, hlow, Nat.div_eq_of_lt hlow, Nat.mod_eq_of_lt hlow]
    · have hdiv : k / 8 = (k - 8) / 8 + 1 := by omega
      have hmod : k % 8 = (k - 8) % 8 := by omega
      rw [ih (by omega), hdiv, hmod, BitVec.getLsbD_of_ge b k (by omega)]
      simp [hk, hlow]

/-- The value of a word's low bytes is the word modulo the width (R54, R53). -/
theorem wordOfBytes_bytesOfWord_width (w : Width) (v : Word) :
    wordOfBytes (bytesOfWord w.bytes v) = BitVec.ofNat 32 (v.toNat % 2 ^ (8 * w.bytes)) := by
  apply BitVec.eq_of_getLsbD_eq
  intro k hk
  rw [getLsbD_wordOfBytes _ hk, getElem?_bytesOfWord, BitVec.getLsbD_ofNat, Nat.testBit_mod_two_pow]
  by_cases hin : k / 8 < w.bytes
  · have hk8 : k < 8 * w.bytes := by omega
    have hparts : 8 * (k / 8) + k % 8 = k := Nat.div_add_mod k 8
    have hbit : ((v >>> (8 * (k / 8))).setWidth 8).getLsbD (k % 8) = v.getLsbD k := by
      simp only [BitVec.getLsbD_setWidth, BitVec.getLsbD_ushiftRight, hparts, Nat.mod_lt k (by omega : 8 > 0),
        decide_true, Bool.true_and]
    rw [if_pos hin, Option.getD_some, hbit, decide_eq_true hk, decide_eq_true hk8]
    rfl
  · have hk8 : ¬ k < 8 * w.bytes := by omega
    simp [hin, hk8]

/-! ## The access primitives -/

section
variable {s t : State} {access access' : Access} {addr addr' v : Word} {w w' : Width}

/-- A write changes its span and nothing else. -/
theorem memoryWritten_storeBytes :
    MemoryWritten s { s with mem := storeBytes addr w v s.mem } addr w.bytes v :=
  fun a => readByte_storeBytes addr w v s.mem a

theorem memWrite_eq_ok (h : memWrite access addr w v s = .ok t) :
    InBounds addr w s ∧ t = { s with mem := storeBytes addr w v s.mem } := by
  by_cases hin : InBounds addr w s
  · rw [memWrite_ok hin] at h; cases h; exact ⟨hin, rfl⟩
  · rw [memWrite_error hin] at h; cases h

/-- What a write at a width puts in memory, a read at that width takes out (R51, R64). -/
theorem memRead_storeBytes_same (hin : InBounds addr w s) :
    memRead access addr w { s with mem := storeBytes addr w v s.mem } =
      .ok (BitVec.ofNat 32 (v.toNat % 2 ^ (8 * w.bytes))) := by
  have hread := readBytes_writeBytes s.mem addr.toNat (bytesOfWord w.bytes v)
  rw [length_bytesOfWord] at hread
  have hin' : InBounds addr w { s with mem := storeBytes addr w v s.mem } := hin
  rw [memRead_ok hin', storeBytes, hread, wordOfBytes_bytesOfWord_width]

/-- A span the write does not touch reads as before. -/
theorem memRead_storeBytes_disjoint
    (h : addr'.toNat + w'.bytes ≤ addr.toNat ∨ addr.toNat + w.bytes ≤ addr'.toNat) :
    memRead access addr' w' { s with mem := storeBytes addr w v s.mem } = memRead access addr' w' s := by
  have hread : readBytes (storeBytes addr w v s.mem) addr'.toNat w'.bytes =
      readBytes s.mem addr'.toNat w'.bytes := by
    refine readBytes_congr fun j hj => ?_
    rw [readByte_storeBytes, if_neg (by omega)]
  simp only [memRead, hread]

end

/-- Settles O41. -/
theorem memReadAndMemWriteAreLittleEndian : Obligations.MemReadAndMemWriteAreLittleEndian := by
  unfold Obligations.MemReadAndMemWriteAreLittleEndian
  intro s access addr v w
  refine ⟨fun hout => ?_, fun hin => ⟨⟨_, memRead_ok hin, fun k hk => ?_⟩, _, memWrite_ok hin,
    memoryWritten_storeBytes, fun _ => rfl, rfl, rfl, rfl⟩⟩
  · exact ⟨memRead_error (Nat.not_le.2 hout), memWrite_error (Nat.not_le.2 hout)⟩
  · have hbyte : k / 8 < w.bytes ↔ k < 8 * w.bytes := by omega
    rw [getLsbD_wordOfBytes _ hk, getElem?_readBytes]
    by_cases hlt : k < 8 * w.bytes <;> simp [hbyte, hlt]

/-- Settles O42. -/
theorem readSeesTheLastWrite : Obligations.ReadSeesTheLastWrite := by
  unfold Obligations.ReadSeesTheLastWrite
  intro s t acc acc' addr addr' v w w' h
  obtain ⟨hin, rfl⟩ := memWrite_eq_ok h
  exact ⟨memRead_storeBytes_same hin, memRead_storeBytes_disjoint⟩

/-! ## The spans -/

/-- Settles O29: the spans row by row. -/
theorem loadAndStoreSpansAreBasePlusOffset : Obligations.LoadAndStoreSpansAreBasePlusOffset := by
  unfold Obligations.LoadAndStoreSpansAreBasePlusOffset
  refine ⟨fun s r rs1 imm => ?_, fun i s h => ?_, fun i s h => ?_⟩
  · simp only [← effectiveAddress_eq, loadSpan, storeSpan, and_self]
  · cases i with
    | lb | lh | lw | lbu | lhu => simp [Instr.mnemonic] at h
    | _ => rfl
  · cases i with
    | sb | sh | sw => simp [Instr.mnemonic] at h
    | _ => rfl

/-! ## Loads -/

/-- A load in bounds completes with the extended value of its bytes. -/
theorem completesWriting_load {i : Instr} {s : State} {rd : Reg} {addr v : Word} {w : Width}
    {extend : Word → Word} (h : exec i s = loadTo rd addr w extend s) (hin : InBounds addr w s)
    (hv : extend (wordOfBytes (readBytes s.mem addr.toNat w.bytes)) = v) : CompletesWriting i s rd v := by
  rw [CompletesWriting, h, ← hv]
  exact loadTo_spec hin

theorem wordOfBytes_one (m : Memory) (a : Nat) :
    (wordOfBytes (readBytes m a 1)).setWidth 8 = readByte m a := by
  simp [readBytes, wordOfBytes]

/-- A zero extension is the number itself (R9). -/
theorem setWidth_word {n : Nat} (x : BitVec n) : x.setWidth 32 = BitVec.ofNat 32 x.toNat :=
  (BitVec.ofNat_toNat 32 x).symm

/-- Settles O30: the extension of each load on the bytes read. -/
theorem loadsCompleteInBounds : Obligations.LoadsCompleteInBounds := by
  unfold Obligations.LoadsCompleteInBounds
  intro s rd rs1 imm
  rw [← effectiveAddress_eq]
  intro ea byte
  refine ⟨fun h => ⟨?_, ?_⟩, fun h => ⟨?_, ?_⟩, fun h => ?_⟩
  · refine completesWriting_load (w := .byte) rfl h ?_
    exact congrArg (BitVec.signExtend 32) (wordOfBytes_one s.mem ea.toNat)
  · refine completesWriting_load (w := .byte) rfl h ?_
    exact (congrArg (BitVec.setWidth 32) (wordOfBytes_one s.mem ea.toNat)).trans (setWidth_word _)
  · refine completesWriting_load (w := .half) rfl h ?_
    exact congrArg (BitVec.signExtend 32) (wordOfBytes_two s.mem ea.toNat)
  · refine completesWriting_load (w := .half) rfl h ?_
    rw [← toNat_append_bytes, ← setWidth_word]
    exact congrArg (BitVec.setWidth 32) (wordOfBytes_two s.mem ea.toNat)
  · exact completesWriting_load (w := .word) rfl h (wordOfBytes_four s.mem ea.toNat)

/-- Settles O31: the fault of each load's span. -/
theorem loadsOutOfBoundsFault : Obligations.LoadsOutOfBoundsFault := by
  unfold Obligations.LoadsOutOfBoundsFault
  intro s rd rs1 imm
  rw [← effectiveAddress_eq]
  exact ⟨fun h => ⟨exec_of_loadSpan rfl h, exec_of_loadSpan rfl h⟩,
    fun h => ⟨exec_of_loadSpan rfl h, exec_of_loadSpan rfl h⟩, fun h => exec_of_loadSpan rfl h⟩

/-! ## Stores -/

/-- Settles O32: the shape of a store at each width. -/
theorem storesCompleteInBounds : Obligations.StoresCompleteInBounds := by
  unfold Obligations.StoresCompleteInBounds
  intro s rs2 rs1 imm
  rw [← effectiveAddress_eq]
  exact ⟨fun h => storeTo_spec (w := .byte) h, fun h => storeTo_spec (w := .half) h,
    fun h => storeTo_spec (w := .word) h⟩

/-- Settles O33: the fault of each store's span. -/
theorem storesOutOfBoundsFault : Obligations.StoresOutOfBoundsFault := by
  unfold Obligations.StoresOutOfBoundsFault
  intro s rs2 rs1 imm
  rw [← effectiveAddress_eq]
  exact ⟨fun h => exec_of_storeSpan rfl h, fun h => exec_of_storeSpan rfl h, fun h => exec_of_storeSpan rfl h⟩

/-! ## Stored code -/

/-- The word at the pc, where its bytes were just written. -/
theorem fetch_of_readBytes {s : State} {w : Word} (halign : s.pc.toNat % 4 = 0) (hin : InBounds s.pc .word s)
    (h : readBytes s.mem s.pc.toNat 4 = bytesOfWord 4 w) : fetch s = .ok w := by
  rcases fetch_cases s with ⟨hmis, -⟩ | ⟨-, hout, -⟩ | ⟨-, -, hf⟩
  · exact absurd halign hmis
  · exact absurd hin hout
  · rw [hf, h, wordOfBytes_bytesOfWord]

/-- Settles O43: the completed store wrote the word the next fetch reads. -/
theorem storeToTheNextInstructionIsFetched : Obligations.StoreToTheNextInstructionIsFetched := by
  unfold Obligations.StoreToTheNextInstructionIsFetched
  intro s t rs2 rs1 imm halign hea h
  have hstore : storeTo (s.pc + 4) .word (readX rs2 s) s = .next t := by rw [← hea]; exact h
  by_cases hin : InBounds (s.pc + 4) .word s
  · have ht : t = commit { mem := some ⟨s.pc + 4, .word, readX rs2 s⟩ } s := by
      rw [storeTo, if_pos hin] at hstore; cases hstore; rfl
    subst ht
    refine fetch_of_readBytes ?_ hin (readBytes_writeBytes s.mem _ (bytesOfWord 4 (readX rs2 s)))
    show (s.pc + 4).toNat % 4 = 0
    rw [BitVec.toNat_add, show (4 : Word).toNat = 4 from rfl]
    omega
  · rw [storeTo_fault hin] at hstore; cases hstore

end Sys2Proof.Machine

/-! PROOFS. Reset, power-on and the register, name and breakpoint ports (10_state.md,
70_reset_and_hazards.md). -/

namespace Sys2Proof.Machine

/-! ## Reset and power-on -/

theorem readX_resetRegisters (s : State) (r : Reg) :
    readX r (resetRegisters s) = if r = 0 then 0 else s.cfg.poison := readX_of_replicate rfl r

/-- Settles O24: `x0` has no storage to read or write, and its two names resolve to index 0. -/
theorem registerZeroIsHardwired : Obligations.RegisterZeroIsHardwired := by
  unfold Obligations.RegisterZeroIsHardwired
  exact fun s v => ⟨readX_zero s, writeX_zero v s, writeX_zero v s, rfl, rfl, rfl, readX_zero _⟩

/-- Settles O44. -/
theorem resetWritesPoison : Obligations.ResetWritesPoison := by
  unfold Obligations.ResetWritesPoison
  rintro s ⟨-, -, -, hpoison⟩
  exact ⟨rfl, hpoison, readX_resetRegisters s, resetRegisters_pc s, fun _ => rfl, resetRegisters_bkpts s,
    resetRegisters_cfg s⟩

/-- Settles O45: both register files are filled with `POISON`, and memory and table are empty. -/
theorem powerOnState : Obligations.PowerOnState := by
  unfold Obligations.PowerOnState
  refine fun c => ⟨fun a => rfl, fun r => ?_, powerOn_pc c, fun addr => ?_⟩
  · rw [readX_resetRegisters, powerOn_cfg]
    exact readX_of_replicate rfl r
  · rw [getBreakpoint, powerOn_bkpts, List.contains_nil, Bool.and_false]

/-! ## The register ports -/

section
variable {i j : Nat} {v : Word} {s : State}

theorem registerAt_lt (h : i < 32) (s : State) : registerAt i s = some (readX ⟨i, h⟩ s) := dif_pos h

@[simp] theorem registerAt_pc (s : State) : registerAt 32 s = some s.pc := rfl

theorem registerAt_gt (h : 32 < i) (s : State) : registerAt i s = none := by
  rw [registerAt, dif_neg (by omega), if_neg (by omega)]

theorem setRegister_lt (h : i < 32) (v : Word) (s : State) :
    setRegister i v s = writeX ⟨i, h⟩ v s := dif_pos h

@[simp] theorem setRegister_pc_eq (v : Word) (s : State) : setRegister 32 v s = { s with pc := v } := rfl

theorem setRegister_gt (h : 32 < i) (v : Word) (s : State) : setRegister i v s = s := by
  rw [setRegister, dif_neg (by omega), if_neg (by omega)]

/-- A general register reads back what the port wrote to it, unless it is `x0`. -/
theorem readX_setRegister (hj : j < 32) :
    readX ⟨j, hj⟩ (setRegister i v s) = if j = 0 then 0 else if j = i then v else readX ⟨j, hj⟩ s := by
  by_cases hzero : j = 0
  · subst hzero; rfl
  rw [if_neg hzero]
  rcases Nat.lt_trichotomy i 32 with hi | rfl | hi
  · rw [setRegister_lt hi, readX_writeX, if_neg (by simpa [Fin.ext_iff] using hzero)]
    simp only [Fin.mk.injEq]
  · rw [setRegister_pc_eq, readX_with_pc, if_neg (by omega)]
  · rw [setRegister_gt hi, if_neg (by omega)]

/-- The pc reads back what the port wrote to it. -/
theorem pc_setRegister : (setRegister i v s).pc = if i = 32 then v else s.pc := by
  rcases Nat.lt_trichotomy i 32 with hi | rfl | hi
  · rw [setRegister_lt hi, writeX_pc, if_neg (by omega)]
  · rfl
  · rw [setRegister_gt hi, if_neg (by omega)]

end

/-- Settles O46: a general register, the pc, and no register. -/
theorem registerPortsReadBack : Obligations.RegisterPortsReadBack := by
  unfold Obligations.RegisterPortsReadBack
  refine fun s i j v => ⟨?_, fun a => by rw [setRegister_mem], setRegister_bkpts i v s, setRegister_cfg i v s⟩
  simp only [getRegister]
  rcases Nat.lt_trichotomy j 32 with hj | rfl | hj
  · rw [registerAt_lt hj, registerAt_lt hj, readX_setRegister hj, if_neg (show ¬ 32 < j by omega),
      apply_ite some, apply_ite some]
  · rw [registerAt_pc, registerAt_pc, pc_setRegister]
    by_cases hi : i = 32
    · subst hi; rfl
    · rw [if_neg hi, if_neg (by omega), if_neg (by omega), if_neg (Ne.symm hi)]
  · rw [registerAt_gt hj, if_pos hj]

/-! ## Register names -/

theorem indexOfName_eq_none_iff {name : String} {l : List String} :
    indexOfName name l = none ↔ name ∉ l := by
  induction l with
  | nil => simp [indexOfName]
  | cons n rest ih =>
    by_cases hn : n = name
    · simp [indexOfName, hn]
    · simp [indexOfName, hn, ih, Ne.symm hn]

theorem indexOfName_lt_length {name : String} {l : List String} {i : Nat} (h : indexOfName name l = some i) :
    i < l.length := by
  induction l generalizing i with
  | nil => cases h
  | cons n rest ih =>
    by_cases hn : n = name
    · simp only [indexOfName, hn, if_true, Option.some.injEq] at h
      simp [← h]
    · simp only [indexOfName, hn, if_false, Option.map_eq_some_iff] at h
      obtain ⟨j, hj, rfl⟩ := h
      simpa using ih hj

/-- A string that is in neither list of names is no name. -/
theorem registerIndex_eq_none {name : String} (hc : name ∉ canonicalNames) (ha : name ∉ abiNames) :
    registerIndex name = none := by
  rw [registerIndex, indexOfName_eq_none_iff.2 hc]
  exact indexOfName_eq_none_iff.2 ha

theorem registerIndex_lt {name : String} {i : Nat} (h : registerIndex name = some i) : i < 33 := by
  unfold registerIndex at h
  split at h
  next j hj => cases h; exact indexOfName_lt_length hj
  next => exact indexOfName_lt_length h

/-- Settles O47: the table's two columns are the two lists of names. -/
theorem registerNamesResolve : Obligations.RegisterNamesResolve := by
  unfold Obligations.RegisterNamesResolve
  intro table
  have hcanonical : ∀ n ∈ canonicalNames, ∃ p ∈ table, n = p.2.1 := by decide
  have habi : ∀ n ∈ abiNames, ∃ p ∈ table, n = p.2.2 := by decide
  refine ⟨by decide, fun n hn => registerIndex_eq_none (fun hc => ?_) (fun ha => ?_), fun n i s hi => ?_,
    fun n s hn => ?_⟩
  · obtain ⟨p, hp, hnp⟩ := hcanonical n hc
    exact (hn p hp).1 hnp
  · obtain ⟨p, hp, hnp⟩ := habi n ha
    exact (hn p hp).2 hnp
  · exact ⟨registerIndex_lt hi, by simp only [getRegister, hi]⟩
  · simp only [getRegister, hn]

/-! ## The breakpoint ports -/

section
variable {a b : Word} {s : State}

theorem getBreakpoint_eq_true_iff :
    getBreakpoint b s = true ↔ b.toNat < s.cfg.memSize ∧ breakpointEntry b ∈ s.bkpts := by
  simp [getBreakpoint]

theorem setBreakpoint_of_ge (h : s.cfg.memSize ≤ a.toNat) (set : Bool) : setBreakpoint a set s = s :=
  if_neg (Nat.not_lt.2 h)

/-- The table after the port: the address's entry as set, every other as before. -/
theorem mem_bkpts_setBreakpoint (ha : a.toNat < s.cfg.memSize) {set : Bool} {k : Nat} :
    k ∈ (setBreakpoint a set s).bkpts ↔ if k = breakpointEntry a then set = true else k ∈ s.bkpts := by
  simp only [setBreakpoint, ha, if_true]
  cases set with
  | false => by_cases hk : k = breakpointEntry a <;> simp [mem_clearEntry, hk]
  | true => by_cases hk : k = breakpointEntry a <;> simp [mem_insertEntry, mem_clearEntry, hk]

end

/-- Settles O48, for an address in memory and one beyond it. -/
theorem breakpointPortsReadBack : Obligations.BreakpointPortsReadBack := by
  unfold Obligations.BreakpointPortsReadBack
  intro s a b set
  refine ⟨?_, fun hb => ?_, fun ha => setBreakpoint_of_ge ha set, fun r => readX_congr (by simp) r, by simp,
    fun k => by rw [setBreakpoint_mem], by simp⟩
  · by_cases ha : a.toNat < s.cfg.memSize
    · have hentry : a.toNat / 4 = b.toNat / 4 ↔ breakpointEntry b = breakpointEntry a := eq_comm
      rw [Bool.eq_iff_iff, getBreakpoint_eq_true_iff, setBreakpoint_cfg, mem_bkpts_setBreakpoint ha]
      by_cases hb : b.toNat < s.cfg.memSize
      · by_cases hk : breakpointEntry b = breakpointEntry a
        · simp [ha, hb, hentry, hk]
        · simp [ha, hb, hentry, hk, getBreakpoint_eq_true_iff]
      · simp [hb, getBreakpoint_eq_true_iff]
    · rw [setBreakpoint_of_ge (Nat.not_lt.1 ha), if_neg fun h => ha h.1]
  · rw [getBreakpoint, decide_eq_false (Nat.not_lt.2 hb), Bool.false_and]

/-! ## The memory ports and the image loader -/

/-- Settles O49: the ports are the access primitives. -/
theorem memoryPorts : Obligations.MemoryPorts := by
  unfold Obligations.MemoryPorts
  intro s w addr v
  refine ⟨fun hout => ⟨?_, ?_⟩, fun hin => ⟨⟨_, ?_, memRead_ok hin⟩, _, ?_, memoryWritten_storeBytes,
    fun _ => rfl, rfl, ⟨rfl, rfl⟩, ?_⟩⟩
  · simp only [hostCall, readMemory, memRead_error (Nat.not_le.2 hout)]
  · simp only [hostCall, writeMemory, memWrite_error (Nat.not_le.2 hout)]
  · simp only [hostCall, readMemory, memRead_ok (show InBounds addr w s from hin)]
  · simp only [hostCall, writeMemory, memWrite_ok (show InBounds addr w s from hin)]
  · simp only [hostCall, readMemory, memRead_storeBytes_same (show InBounds addr w s from hin)]

theorem loadImage_ok {s : State} {base : Word} {blob : List Byte}
    (h : base.toNat + blob.length ≤ s.cfg.memSize) :
    loadImage base blob s = some { s with mem := writeBytes s.mem base.toNat blob } := if_pos h

theorem loadImage_refused {s : State} {base : Word} {blob : List Byte}
    (h : s.cfg.memSize < base.toNat + blob.length) : loadImage base blob s = none := if_neg (Nat.not_le.2 h)

/-- Bytes outside a written span read as before. -/
theorem readByte_writeBytes_outside {m : Memory} {bs : List Byte} {a k : Nat}
    (h : k < a ∨ a + bs.length ≤ k) : readByte (writeBytes m a bs) k = readByte m k := by
  rw [readByte_writeBytes]
  rcases h with h | h
  · rw [if_neg (by omega)]
  · rw [List.getElem?_eq_none (by omega), Option.getD_none, ite_self]

/-- Settles O50. -/
theorem imageLoadIsVerbatimOrRefused : Obligations.ImageLoadIsVerbatimOrRefused := by
  unfold Obligations.ImageLoadIsVerbatimOrRefused
  intro s base blob
  refine ⟨fun hout => ?_, fun hin => ⟨{ s with mem := writeBytes s.mem base.toNat blob }, ?_, fun k hk => ?_,
    fun a ha => readByte_writeBytes_outside ha, fun _ => rfl, rfl, rfl, rfl⟩⟩
  · simp only [hostCall, loadImage_refused hout]
  · simp only [hostCall, loadImage_ok hin]
  · rw [readByte_writeBytes, if_pos (Nat.le_add_right _ _), Nat.add_sub_cancel_left,
      List.getElem?_eq_getElem hk, Option.getD_some]

/-! ## Boot -/

/-- The bytes at the head of a written span are those written. -/
theorem readBytes_writeBytes_append (m : Memory) (a : Nat) (bs rest : List Byte) :
    readBytes (writeBytes m a (bs ++ rest)) a bs.length = bs := by
  apply List.ext_getElem?
  intro j
  rw [getElem?_readBytes]
  by_cases hj : j < bs.length
  · rw [if_pos hj, readByte_writeBytes, if_pos (Nat.le_add_right _ _), Nat.add_sub_cancel_left,
      List.getElem?_append_left hj, List.getElem?_eq_getElem hj, Option.getD_some]
  · rw [if_neg hj, List.getElem?_eq_none (Nat.not_lt.1 hj)]

/-- The parts of the state that decide what the first step does are the same. -/
def SameCode (s t : State) : Prop := t.pc = s.pc ∧ t.mem = s.mem ∧ t.cfg = s.cfg

theorem SameCode.foldl {α : Type} {f : State → α → State} {l : List α} (h : ∀ x ∈ l, ∀ s, SameCode s (f s x))
    (s : State) : SameCode s (l.foldl f s) := by
  induction l generalizing s with
  | nil => exact ⟨rfl, rfl, rfl⟩
  | cons x l ih =>
    obtain ⟨hpc, hmem, hcfg⟩ := h x (List.mem_cons_self ..) s
    obtain ⟨hpc', hmem', hcfg'⟩ := ih (fun y hy => h y (List.mem_cons_of_mem x hy)) (f s x)
    exact ⟨hpc'.trans hpc, hmem'.trans hmem, hcfg'.trans hcfg⟩

/-- Setting a register other than the pc leaves the pc, memory and parameters. -/
theorem sameCode_setRegister {i : Nat} (hi : i ≠ 32) (v : Word) (s : State) :
    SameCode s (setRegister i v s) :=
  ⟨by rw [pc_setRegister, if_neg hi], setRegister_mem i v s, setRegister_cfg i v s⟩

/-- Setting a breakpoint leaves them too. -/
theorem sameCode_setBreakpoint (a : Word) (b : Bool) (s : State) : SameCode s (setBreakpoint a b s) :=
  ⟨setBreakpoint_pc a b s, setBreakpoint_mem a b s, setBreakpoint_cfg a b s⟩

/-- What the boot sequence leaves: the entry, the image over zeros and the parameters (R271 to R273). -/
theorem boot_eq_some {c : Config} {base entry : Word} {image : List Byte} {regs : List (Nat × Word)}
    (breakpoints : List Word) (hfits : base.toNat + image.length ≤ c.memSize) (hregs : ∀ p ∈ regs, p.1 ≠ 32) :
    ∃ s, boot c base image entry regs breakpoints = some s ∧ s.pc = entry ∧
      s.mem = writeBytes [] base.toNat image ∧ s.cfg = c := by
  have hload := loadImage_ok (s := State.powerOn c) hfits
  simp only [boot, hload]
  obtain ⟨hpc', hmem', hcfg'⟩ := SameCode.foldl
    (fun (p : Nat × Word) hp s => sameCode_setRegister (hregs p hp) p.2 s)
    (setRegister 32 entry { State.powerOn c with mem := writeBytes [] base.toNat image })
  obtain ⟨hpc, hmem, hcfg⟩ := SameCode.foldl (l := breakpoints)
    (fun a _ s => sameCode_setBreakpoint a true s) (regs.foldl (fun s p => setRegister p.1 p.2 s)
    (setRegister 32 entry { State.powerOn c with mem := writeBytes [] base.toNat image }))
  exact ⟨_, rfl, hpc.trans hpc', hmem.trans hmem', hcfg.trans hcfg'⟩

/-- Settles O51: the first fetch reads the image's first word, which decodes to its instruction. -/
theorem bootedMachineRunsItsImage : Obligations.BootedMachineRunsItsImage := by
  unfold Obligations.BootedMachineRunsItsImage
  intro c base i rest regs breakpoints halign hfits hregs hi
  have hlen : (encodeBytes i).length = 4 := length_bytesOfWord 4 (encode i)
  have himage : (encodeBytes i ++ rest).length = 4 + rest.length := by rw [List.length_append, hlen]
  obtain ⟨s, hboot, hpc, hmem, hcfg⟩ :=
    boot_eq_some (entry := base) (image := encodeBytes i ++ rest) breakpoints (by rwa [himage]) hregs
  refine ⟨s, hboot, hpc, hcfg, fun a ha => ?_, ?_⟩
  · rw [hmem, readByte_writeBytes_outside (by rwa [himage])]; rfl
  · have hin : InBounds s.pc .word s := by
      show s.pc.toNat + 4 ≤ s.cfg.memSize
      rw [hpc, hcfg]; omega
    have hbytes : readBytes s.mem s.pc.toNat 4 = encodeBytes i := by
      rw [hmem, hpc, ← hlen, readBytes_writeBytes_append]
    exact step_of_decode (fetch_of_readBytes (by rwa [hpc]) hin hbytes) (decode_encode hi)

end Sys2Proof.Machine

/-! PROOFS. The disassembler's lines and what they assemble to, shape by shape (R97 to R104). -/

namespace Sys2Proof.Machine

/-! ## Operands back from their text -/

theorem abiName_mem (r : Reg) : abiName r ∈ abiNames := by
  revert r; decide

/-- An ABI name is read as its register. -/
theorem asmRegister_abiName (r : Reg) : asmRegister (abiName r) = some r := by
  revert r; decide

theorem asmImmediate_of_fits {v : Int} (hlow : -(2 ^ 31) ≤ v) (hhigh : v ≤ 2 ^ 32 - 1) :
    asmImmediate v = some (BitVec.ofInt 32 v) :=
  if_pos (decide_eq_true ⟨hlow, hhigh⟩)

/-- A signed field of at most 32 bits is in range, and its word is its sign extension. -/
theorem asmImmediate_toInt {n : Nat} (hn : n ≤ 32) (x : BitVec n) :
    asmImmediate x.toInt = some (x.signExtend 32) := by
  have hpow : (2 : Int) ^ (n - 1) ≤ 2 ^ 31 := by
    exact_mod_cast Nat.pow_le_pow_right (by omega) (show n - 1 ≤ 31 by omega)
  have hlow := BitVec.le_toInt x
  have hhigh := BitVec.toInt_le (x := x)
  exact asmImmediate_of_fits (by omega) (by omega)

/-- An unsigned field of at most 32 bits is in range, and its word is its zero extension. -/
theorem asmImmediate_toNat {n : Nat} (hn : n ≤ 32) (x : BitVec n) :
    asmImmediate (x.toNat : Int) = some (x.setWidth 32) := by
  have hlt : x.toNat < 2 ^ 32 := Nat.lt_of_lt_of_le x.isLt (Nat.pow_le_pow_right (by omega) hn)
  rw [asmImmediate_of_fits (by omega) (by omega), BitVec.ofInt_natCast, BitVec.ofNat_toNat]

/-! ## Fields back from the immediate (R100) -/

theorem extractLsb'_signExtend12 (imm : BitVec 12) : (imm.signExtend 32).extractLsb' 0 12 = imm := by
  apply BitVec.eq_of_getLsbD_eq
  intro k hk
  simp only [BitVec.getLsbD_extractLsb', BitVec.getLsbD_signExtend, Nat.zero_add, hk, decide_true,
    Bool.true_and, if_true, show k < 32 by omega]

theorem extractLsb'_signExtend13 {off : BitVec 13} (h : evenOffset off = true) :
    (off.signExtend 32).extractLsb' 1 12 ++ 0#1 = off := by
  have h0 := evenOffset_bit_zero h
  apply BitVec.eq_of_getLsbD_eq
  intro k hk
  simp only [BitVec.getLsbD_append, BitVec.getLsbD_extractLsb', BitVec.getLsbD_signExtend]
  interval_cases k <;> simp_all

theorem extractLsb'_signExtend21 {off : BitVec 21} (h : evenOffset off = true) :
    (off.signExtend 32).extractLsb' 1 20 ++ 0#1 = off := by
  have h0 := evenOffset_bit_zero h
  apply BitVec.eq_of_getLsbD_eq
  intro k hk
  simp only [BitVec.getLsbD_append, BitVec.getLsbD_extractLsb', BitVec.getLsbD_signExtend]
  interval_cases k <;> simp_all

/-- A zero-extended field is its low bits. -/
theorem extractLsb'_setWidth {n : Nat} (hn : n ≤ 32) (x : BitVec n) :
    (x.setWidth 32).extractLsb' 0 n = x := by
  apply BitVec.eq_of_getLsbD_eq
  intro k hk
  simp [hk, show k < 32 by omega]

/-! ## Each shape (R97) -/

section
variable (rd rs1 rs2 : Reg)

theorem assembleShape_upper (mk : Reg → BitVec 20 → Instr) (imm : BitVec 20) :
    assembleShape (.upper mk) [.reg (abiName rd), .imm imm.toNat] = .word (encode (mk rd imm)) := by
  simp [assembleShape, asmRegister_abiName, asmImmediate_toNat, extractLsb'_setWidth, assembled]

theorem assembleShape_jump (mk : Reg → BitVec 21 → Instr) {off : BitVec 21} (h : evenOffset off = true) :
    assembleShape (.jump mk) [.reg (abiName rd), .imm off.toInt] = .word (encode (mk rd off)) := by
  simp [assembleShape, asmRegister_abiName, asmImmediate_toInt, extractLsb'_signExtend21 h, assembled]

theorem assembleShape_load (mk : Reg → Reg → BitVec 12 → Instr) (imm : BitVec 12) :
    assembleShape (.load mk) [.reg (abiName rd), .memory imm.toInt (abiName rs1)] =
      .word (encode (mk rd rs1 imm)) := by
  simp [assembleShape, asmRegister_abiName, asmImmediate_toInt, extractLsb'_signExtend12, assembled]

theorem assembleShape_store (mk : Reg → Reg → BitVec 12 → Instr) (imm : BitVec 12) :
    assembleShape (.store mk) [.reg (abiName rs2), .memory imm.toInt (abiName rs1)] =
      .word (encode (mk rs2 rs1 imm)) := by
  simp [assembleShape, asmRegister_abiName, asmImmediate_toInt, extractLsb'_signExtend12, assembled]

theorem assembleShape_immediate (mk : Reg → Reg → BitVec 12 → Instr) (imm : BitVec 12) :
    assembleShape (.immediate mk) [.reg (abiName rd), .reg (abiName rs1), .imm imm.toInt] =
      .word (encode (mk rd rs1 imm)) := by
  simp [assembleShape, asmRegister_abiName, asmImmediate_toInt, extractLsb'_signExtend12, assembled]

theorem assembleShape_shift (mk : Reg → Reg → BitVec 5 → Instr) (shamt : BitVec 5) :
    assembleShape (.shift mk) [.reg (abiName rd), .reg (abiName rs1), .imm shamt.toNat] =
      .word (encode (mk rd rs1 shamt)) := by
  have hlt : (shamt.setWidth 32).toNat < 32 := by
    rw [BitVec.toNat_setWidth_of_le (by omega)]
    exact shamt.isLt
  simp only [assembleShape, asmRegister_abiName, asmImmediate_toNat (show 5 ≤ 32 by omega), hlt, if_true,
    extractLsb'_setWidth (show 5 ≤ 32 by omega)]

theorem assembleShape_branch (mk : Reg → Reg → BitVec 13 → Instr) {off : BitVec 13}
    (h : evenOffset off = true) :
    assembleShape (.branch mk) [.reg (abiName rs1), .reg (abiName rs2), .imm off.toInt] =
      .word (encode (mk rs1 rs2 off)) := by
  simp [assembleShape, asmRegister_abiName, asmImmediate_toInt, extractLsb'_signExtend13 h, assembled]

theorem assembleShape_register (mk : Reg → Reg → Reg → Instr) :
    assembleShape (.register mk) [.reg (abiName rd), .reg (abiName rs1), .reg (abiName rs2)] =
      .word (encode (mk rd rs1 rs2)) := by
  simp [assembleShape, asmRegister_abiName, assembled]

end

/-! ## A line of the disassembler -/

/-- The line of an executable instruction. -/
def lineOf (i : Instr) : AsmLine := ⟨i.mnemonic, asmOperands i⟩

theorem assemble_of_shape {line : AsmLine} {shape : AsmShape}
    (h : shapeOf line.mnemonic asmGrammar = some shape) :
    assemble line = assembleShape shape line.operands := by
  simp only [assemble, h]

/-- Assembling the line of an executable instruction gives its word, by its mnemonic's shape. -/
theorem assemble_lineOf {i : Instr} (hwf : i.wellFormed = true) (hi : i.executes = true) :
    assemble (lineOf i) = .word (encode i) := by
  cases i with
  | lui => exact (assemble_of_shape rfl).trans (assembleShape_upper ..)
  | auipc => exact (assemble_of_shape rfl).trans (assembleShape_upper ..)
  | jal => exact (assemble_of_shape rfl).trans (assembleShape_jump _ _ hwf)
  | jalr | lb | lh | lw | lbu | lhu => exact (assemble_of_shape rfl).trans (assembleShape_load ..)
  | beq | bne | blt | bge | bltu | bgeu =>
    exact (assemble_of_shape rfl).trans (assembleShape_branch _ _ _ hwf)
  | sb | sh | sw => exact (assemble_of_shape rfl).trans (assembleShape_store ..)
  | addi | slti | sltiu | xori | ori | andi =>
    exact (assemble_of_shape rfl).trans (assembleShape_immediate ..)
  | slli | srli | srai => exact (assemble_of_shape rfl).trans (assembleShape_shift ..)
  | add | sub | sll | slt | sltu | xor | srl | sra | or | and =>
    exact (assemble_of_shape rfl).trans (assembleShape_register ..)
  | fence | ecall | ebreak | systemOther => cases hi

/-- A register that an operand names has an ABI name. -/
def AbiNamed (o : AsmOperand) : Prop := ∀ n, (o = .reg n ∨ ∃ v, o = .memory v n) → n ∈ abiNames

theorem abiNamed_reg (r : Reg) : AbiNamed (.reg (abiName r)) := by
  rintro n (⟨⟨⟩⟩ | ⟨v, ⟨⟩⟩)
  exact abiName_mem r

theorem abiNamed_imm (v : Int) : AbiNamed (.imm v) := by
  rintro n (⟨⟨⟩⟩ | ⟨v, ⟨⟩⟩)

theorem abiNamed_memory (v : Int) (r : Reg) : AbiNamed (.memory v (abiName r)) := by
  rintro n (⟨⟨⟩⟩ | ⟨v, ⟨⟩⟩)
  exact abiName_mem r

/-- Every template is made of these three. -/
theorem abiNamed_of_mem_asmOperands (i : Instr) : ∀ o ∈ asmOperands i, AbiNamed o := by
  cases i <;> simp [asmOperands, abiNamed_reg, abiNamed_imm, abiNamed_memory]

theorem disassemble_of_ok {w : Word} {i : Instr} (h : decodeExecutable w = .ok i) :
    disassemble w = some (lineOf i) := by
  simp only [disassemble, h, lineOf]

theorem disassemble_of_error {w : Word} {reason : InvalidReason} (h : decodeExecutable w = .error reason) :
    disassemble w = none := by
  simp only [disassemble, h]

/-- A line of the disassembler is that of the executable instruction whose word was given. -/
theorem disassemble_eq_some {w : Word} {l : AsmLine} (h : disassemble w = some l) :
    ∃ i, i.wellFormed = true ∧ i.executes = true ∧ w = encode i ∧ l = lineOf i := by
  cases hd : decodeExecutable w with
  | error reason => rw [disassemble_of_error hd] at h; cases h
  | ok i =>
    rw [disassemble_of_ok hd] at h; cases h
    obtain ⟨hdecode, hi⟩ := decodeExecutable_eq_ok_iff.1 hd
    obtain ⟨hwf, hword⟩ := isWordOf_of_decode hdecode
    exact ⟨i, hwf, hi, hword.symm, rfl⟩

theorem assemble_of_disassemble {w : Word} {l : AsmLine} (h : disassemble w = some l) :
    assemble l = .word w := by
  obtain ⟨i, hwf, hi, rfl, rfl⟩ := disassemble_eq_some h
  exact assemble_lineOf hwf hi

/-- A text that reads as a line assembles as the line does. -/
theorem assembleText_of_readText {text : AsmText} {l : AsmLine} (h : readText text = some l) :
    assembleText text = assemble l := by
  simp only [assembleText, h]

/-- Settles O52: the line is that of the instruction whose word it is, and each shape puts its operands back
into their fields. -/
theorem assembleOfDisassembleIsTheWord : Obligations.AssembleOfDisassembleIsTheWord := by
  unfold Obligations.AssembleOfDisassembleIsTheWord
  exact fun w => ⟨fun i hd => ⟨lineOf i, disassemble_of_ok hd, rfl, abiNamed_of_mem_asmOperands i⟩,
    fun reason => disassemble_of_error, fun l => assemble_of_disassemble,
    fun l text hl htext => (assembleText_of_readText htext).trans (assemble_of_disassemble hl)⟩

/-- Settles O54. -/
theorem assemblerOnlyMnemonicsAreNotDisassembled : Obligations.AssemblerOnlyMnemonicsAreNotDisassembled := by
  unfold Obligations.AssemblerOnlyMnemonicsAreNotDisassembled
  refine ⟨(assemble_of_shape rfl).trans rfl, (assemble_of_shape rfl).trans rfl,
    disassemble_of_error (decodeExecutable_of_refused (.inr (by decide))),
    disassemble_of_error (decodeExecutable_of_refused (.inr (by decide))), fun l hl => ?_,
    decode_of_lowBits_ne (by decide)⟩
  simp only [assemble, hl, asmSentinel]

end Sys2Proof.Machine

/-! PROOFS. Immediate tokens (R99): the three forms a token can have, and what each reads as. -/

namespace Sys2Proof.Machine

/-! ## Digits -/

theorem isDigit_iff {c : Char} : c.isDigit = true ↔ 48 ≤ c.toNat ∧ c.toNat ≤ 57 := by
  simp only [Char.isDigit, Bool.and_eq_true, decide_eq_true_eq]
  exact Iff.rfl

theorem decimalDigit_eq_none {c : Char} (h : c.isDigit = false) : decimalDigit c = none := by
  refine if_neg fun hrange => ?_
  rw [isDigit_iff.2 hrange] at h
  cases h

/-- The letters of a hexadecimal digit, by their code points. -/
theorem mem_hexLetters {c : Char} (h : 97 ≤ c.toNat ∧ c.toNat ≤ 102 ∨ 65 ≤ c.toNat ∧ c.toNat ≤ 70) :
    c ∈ "abcdefABCDEF".toList := by
  rw [← Char.ofNat_toNat c]
  obtain ⟨hlow, hhigh⟩ | ⟨hlow, hhigh⟩ := h
  all_goals
    generalize c.toNat = n at hlow hhigh
    interval_cases n <;> decide

theorem hexDigit_eq_none {c : Char} (hdigit : c.isDigit = false) (hletter : c ∉ "abcdefABCDEF".toList) :
    hexDigit c = none := by
  rw [hexDigit, if_neg fun h => hletter (mem_hexLetters (.inl h)),
    if_neg fun h => hletter (mem_hexLetters (.inr h)), decimalDigit_eq_none hdigit]

theorem decimalDigit_digitChar : ∀ d < 10, decimalDigit (Nat.digitChar d) = some d := by decide

theorem hexDigit_digitChar : ∀ d < 16, hexDigit (Nat.digitChar d) = some d := by decide

theorem isDigit_digitChar : ∀ d < 10, (Nat.digitChar d).isDigit = true := by decide

/-! ## Numbers -/

/-- The number that digits write in a radix, after the value `acc`. -/
def numberFrom (radix acc : Nat) (ds : List Nat) : Nat := ds.foldl (fun a d => a * radix + d) acc

theorem numberFrom_lt {radix : Nat} {ds : List Nat} (h : ∀ d ∈ ds, d < radix) (acc : Nat) :
    numberFrom radix acc ds < (acc + 1) * radix ^ ds.length := by
  induction ds generalizing acc with
  | nil => simp [numberFrom]
  | cons d ds ih =>
    have hd : d < radix := h d (List.mem_cons_self ..)
    calc numberFrom radix acc (d :: ds)
        < (acc * radix + d + 1) * radix ^ ds.length := ih (fun x hx => h x (List.mem_cons_of_mem d hx)) _
      _ ≤ ((acc + 1) * radix) * radix ^ ds.length := by
          apply Nat.mul_le_mul_right
          rw [Nat.add_mul, Nat.one_mul]
          omega
      _ = (acc + 1) * radix ^ (d :: ds).length := by rw [List.length_cons, Nat.pow_succ', Nat.mul_assoc]

theorem digitsValue_decimal {ds : List Nat} (h : ∀ d ∈ ds, d < 10) :
    digitsValue decimalDigit 10 (ds.map Nat.digitChar) 0 = some (numberFrom 10 0 ds) :=
  digitsValue_map (fun d hd => decimalDigit_digitChar d (h d hd)) 0

theorem digitsValue_hex {ds : List Nat} (h : ∀ d ∈ ds, d < 16) :
    digitsValue hexDigit 16 (ds.map Nat.digitChar) 0 = some (numberFrom 16 0 ds) :=
  digitsValue_map (fun d hd => hexDigit_digitChar d (h d hd)) 0

/-- The range of R99 for a number without a sign. -/
theorem fitting_natCast (n : Nat) : fitting (n : Int) = if n < 2 ^ 32 then some (n : Int) else none := by
  have hiff : immediateFits (n : Int) = true ↔ n < 2 ^ 32 := by
    rw [immediateFits, decide_eq_true_eq]
    omega
  simp only [fitting, hiff]

/-- The range of R99 for a number with a minus. -/
theorem fitting_neg (n : Nat) : fitting (-(n : Int)) = if n ≤ 2 ^ 31 then some (-(n : Int)) else none := by
  have hiff : immediateFits (-(n : Int)) = true ↔ n ≤ 2 ^ 31 := by
    rw [immediateFits, decide_eq_true_eq]
    omega
  simp only [fitting, hiff]

/-! ## The three forms of a token -/

theorem immediateToken_hex (d : Char) (ds : List Char) :
    immediateToken ('0' :: 'x' :: d :: ds) =
      if ds.length < 8 then (digitsValue hexDigit 16 (d :: ds) 0).bind fun v => fitting v else none := rfl

theorem immediateToken_minus (d : Char) (ds : List Char) :
    immediateToken ('-' :: d :: ds) =
      (digitsValue decimalDigit 10 (d :: ds) 0).bind fun v => fitting (-(v : Int)) := rfl

/-- A token that starts with neither `0x` nor a minus is read as decimal digits. -/
theorem immediateToken_decimal {cs : List Char} (hne : cs ≠ []) (hhex : cs.take 2 ≠ ['0', 'x'])
    (hminus : cs.head? ≠ some '-') :
    immediateToken cs = (digitsValue decimalDigit 10 cs 0).bind fun v => fitting v := by
  unfold immediateToken
  split
  next => exact absurd rfl hhex
  next => exact absurd rfl hminus
  next => rfl
  next => exact absurd rfl hne

/-- Every token has one of the three forms, or is too short to be of the first two. -/
theorem token_forms (cs : List Char) :
    cs = [] ∨ cs = ['-'] ∨ cs.take 2 = ['0', 'x'] ∨ (∃ d ds, cs = '-' :: d :: ds) ∨
      (cs ≠ [] ∧ cs.take 2 ≠ ['0', 'x'] ∧ cs.head? ≠ some '-') := by
  cases cs with
  | nil => exact .inl rfl
  | cons c cs =>
    by_cases hminus : c = '-'
    · subst hminus
      cases cs with
      | nil => exact .inr (.inl rfl)
      | cons d ds => exact .inr (.inr (.inr (.inl ⟨d, ds, rfl⟩)))
    · by_cases hhex : (c :: cs).take 2 = ['0', 'x']
      · exact .inr (.inr (.inl hhex))
      · exact .inr (.inr (.inr (.inr ⟨by simp, hhex, by simpa using hminus⟩)))

/-! ## Tokens as written -/

theorem immediateToken_hex_written {ds : List Nat} (h : ∀ d ∈ ds, d < 16) :
    immediateToken ('0' :: 'x' :: ds.map Nat.digitChar) =
      if 1 ≤ ds.length ∧ ds.length ≤ 8 then some (numberFrom 16 0 ds : Int) else none := by
  cases ds with
  | nil => rfl
  | cons d ds =>
    have hvalue := digitsValue_hex h
    rw [List.map_cons] at hvalue ⊢
    rw [immediateToken_hex, hvalue, List.length_map, List.length_cons]
    by_cases hlen : ds.length < 8
    · have hpow : 16 ^ (d :: ds).length ≤ 16 ^ 8 := Nat.pow_le_pow_right (by omega) hlen
      have hlt : numberFrom 16 0 (d :: ds) < 2 ^ 32 := by
        have := numberFrom_lt h 0
        omega
      rw [if_pos hlen, if_pos (by omega), Option.bind_some, fitting_natCast, if_pos hlt]
    · rw [if_neg hlen, if_neg (by omega)]

/-- A run of decimal digits has neither a minus nor an `x`. -/
theorem written_decimal_form {ds : List Nat} (h : ∀ d ∈ ds, d < 10) {c : Char} (hc : c.isDigit = false) :
    c ∉ ds.map Nat.digitChar := by
  intro hmem
  obtain ⟨d, hd, rfl⟩ := List.mem_map.1 hmem
  rw [isDigit_digitChar d (h d hd)] at hc
  cases hc

theorem immediateToken_decimal_written {ds : List Nat} (h : ∀ d ∈ ds, d < 10) (hne : ds ≠ []) :
    immediateToken (ds.map Nat.digitChar) =
      if numberFrom 10 0 ds < 2 ^ 32 then some (numberFrom 10 0 ds : Int) else none := by
  have hx : 'x' ∉ ds.map Nat.digitChar := written_decimal_form h rfl
  have hminus : '-' ∉ ds.map Nat.digitChar := written_decimal_form h rfl
  rw [immediateToken_decimal (by simpa using hne) (fun htake => hx ?_) (fun hhead => hminus ?_),
    digitsValue_decimal h, Option.bind_some, fitting_natCast]
  · exact List.mem_of_mem_take (by rw [htake]; simp)
  · exact List.mem_of_mem_head? hhead

theorem immediateToken_minus_written {ds : List Nat} (h : ∀ d ∈ ds, d < 10) (hne : ds ≠ []) :
    immediateToken ('-' :: ds.map Nat.digitChar) =
      if numberFrom 10 0 ds ≤ 2 ^ 31 then some (-(numberFrom 10 0 ds : Int)) else none := by
  obtain ⟨d, ds, rfl⟩ := List.exists_cons_of_ne_nil hne
  have hvalue := digitsValue_decimal h
  rw [List.map_cons] at hvalue ⊢
  rw [immediateToken_minus, hvalue, Option.bind_some, fitting_neg]

/-! ## Tokens that read as nothing -/

/-- A hexadecimal token with a character that is no hexadecimal digit. -/
theorem immediateToken_hex_eq_none {before after : List Char} {c : Char} (hc : hexDigit c = none) :
    immediateToken ('0' :: 'x' :: before ++ c :: after) = none := by
  have hvalue := digitsValue_append_none (radix := 16) (before := before) (after := after) hc 0
  obtain ⟨d, ds, hcons⟩ := List.exists_cons_of_ne_nil (show before ++ c :: after ≠ [] by simp)
  rw [List.cons_append, List.cons_append, hcons, immediateToken_hex, ← hcons, hvalue,
    Option.bind_none, ite_self]

/-- Any other token with a character that is no decimal digit, but for its minus. -/
theorem immediateToken_decimal_eq_none {before after : List Char} {c : Char} (hc : c.isDigit = false)
    (hminus : before ≠ [] ∨ c ≠ '-') (hx : before ≠ ['0'] ∨ c ≠ 'x') (hhex : before.take 2 ≠ ['0', 'x']) :
    immediateToken (before ++ c :: after) = none := by
  have hdigit := decimalDigit_eq_none hc
  have hvalue {before : List Char} :=
    digitsValue_append_none (radix := 10) (before := before) (after := after) hdigit 0
  rcases token_forms (before ++ c :: after) with hform | hform | hform | ⟨d, ds, hform⟩ | ⟨hne, hhex', hhead⟩
  · simp at hform
  · rw [hform]; rfl
  · match before, hhex, hx, hform with
    | [], _, _, hform =>
      obtain ⟨rfl, -⟩ := List.cons.inj hform
      cases hc
    | [a], _, hx, hform =>
      obtain ⟨rfl, htail⟩ := List.cons.inj hform
      obtain ⟨rfl, -⟩ := List.cons.inj htail
      simp at hx
    | a :: b :: rest, hhex, _, hform => exact absurd hform hhex
  · cases before with
    | nil =>
      obtain ⟨rfl, -⟩ := List.cons.inj hform
      simp at hminus
    | cons a before =>
      obtain ⟨-, htail⟩ := List.cons.inj hform
      rw [hform, immediateToken_minus, ← htail, List.append_eq, hvalue, Option.bind_none]
  · rw [immediateToken_decimal hne hhex' hhead, hvalue, Option.bind_none]

/-- A line with a token that reads as nothing assembles to the sentinel. -/
theorem assembleText_of_malformed {text : AsmText} {o : AsmToken} (ho : o ∈ text.operands)
    (h : readToken o = none) : assembleText text = asmSentinel := by
  simp only [assembleText, readText, readTokens_none ho h, Option.map_none]

/-- Settles O53: the forms of a token, each read as it is written, and a character that breaks its form. -/
theorem immediateTokensReadAsWritten : Obligations.ImmediateTokensReadAsWritten := by
  unfold Obligations.ImmediateTokensReadAsWritten
  refine ⟨fun ds h => immediateToken_hex_written h,
    fun ds h hne => ⟨immediateToken_decimal_written h hne, immediateToken_minus_written h hne⟩,
    fun before after c hc hminus hx hhex => immediateToken_decimal_eq_none hc hminus hx hhex,
    fun before after c hdigit hletter => immediateToken_hex_eq_none (hexDigit_eq_none hdigit hletter),
    rfl, rfl, fun text o token ho hform h => assembleText_of_malformed ho ?_⟩
  obtain rfl | ⟨base, rfl⟩ := hform
  · simp only [readToken, h, Option.map_none]
  · simp only [readToken, h, Option.map_none]

end Sys2Proof.Machine
